-- ==== Sys2Proof/Config.lean ====
section
/-! DEFINITION. The implementation parameters of 00_scope rule R6. The model takes them as an argument: every
word type, every item format and every command below is written for any parameters `P`, and a statement that
needs the constraints of R6 has `P.Valid` as a hypothesis (93 U29). The spec draws no free value (R11), so
there is no opaque constant here. -/

namespace Sys2Proof

/-- The free parameters of R6. -/
structure Params where
  /-- `SYM_W`: width of one symbol (D2). -/
  symW : Nat
  /-- `WEIGHT_W`: width of a weight or count, unsigned (D4). -/
  weightW : Nat
  /-- `LEN_W`: width of an item count (D5). -/
  lenW : Nat
  /-- `CODE_MAX`: the largest length of one code in bits (D6). -/
  codeMax : Nat
  /-- `MARK_INTERNAL`: the value of the character `0` (D7). -/
  markInternal : BitVec symW
  /-- `MARK_LEAF`: the value of the character `1` (D7). -/
  markLeaf : BitVec symW
  deriving DecidableEq, Repr

/-! ### The derived parameters (R6) -/

/-- `NSYM = 2^SYM_W`: size of the alphabet. -/
def Params.nsym (P : Params) : Nat := 2 ^ P.symW

/-- The largest weight or count, `2^WEIGHT_W − 1` (R110, R118). -/
def Params.weightMax (P : Params) : Nat := 2 ^ P.weightW - 1

/-- `LEN_MAX = 2^LEN_W − 1`: the most items in one operand or result. -/
def Params.lenMax (P : Params) : Nat := 2 ^ P.lenW - 1

/-- `IN_W = SYM_W + WEIGHT_W`: width of an input item (D25). -/
abbrev Params.inW (P : Params) : Nat := P.weightW + P.symW

/-- `CMD_W = 8 + LEN_W`: width of a command word (D24). -/
abbrev Params.cmdW (P : Params) : Nat := P.lenW + 8

/-- `8 + SYM_W + LEN_W`: width of the response word (20_memory R56; 30_encoding R84). -/
abbrev Params.rspW (P : Params) : Nat := P.lenW + P.symW + 8

/-- `NODE_MAX = 2·NSYM − 1`: node slots in the arena (D33; 10_state R36). -/
def Params.nodeMax (P : Params) : Nat := 2 * P.nsym - 1

/-- The constraints of R6. A setting that breaks one is outside the model: it is refused by being no case of
a statement with this hypothesis (93 U29). -/
structure Params.Valid (P : Params) : Prop where
  /-- `SYM_W ≥ 1`. -/
  symW_pos : 1 ≤ P.symW
  /-- `LEN_W ≥ 1`. -/
  lenW_pos : 1 ≤ P.lenW
  /-- `WEIGHT_W ≥ LEN_W`. -/
  lenW_le : P.lenW ≤ P.weightW
  /-- `CODE_MAX ≥ NSYM − 1`. -/
  codeMax_ge : P.nsym - 1 ≤ P.codeMax
  /-- `MARK_INTERNAL ≠ MARK_LEAF`. -/
  marks_ne : P.markInternal ≠ P.markLeaf

/-- The default of every free parameter: the column "default" of R6, which the spec's encodings and test
vectors use. -/
@[reducible] def Params.default : Params :=
  { symW := 8
    weightW := 32
    lenW := 32
    codeMax := 255
    markInternal := 0x30#8
    markLeaf := 0x31#8 }

end Sys2Proof
end

