-- ==== Sys2Proof/Word.lean ====
section
/-! DEFINITION. The words that cross the interface, at the widths of 00_scope rule R6. Bit 0 is the
least significant bit (R8). A bit string is a list of bits, first bit first (R9), not a number. -/

namespace Sys2Proof

/-- One symbol, character or marker: `SYM_W` bits (R6, R7). -/
abbrev Symbol (P : Params) := BitVec P.symW

/-- A command word on CMD: `CMD_W` bits (R70). -/
abbrev CmdWord (P : Params) := BitVec P.cmdW

/-- An operand item on IN: `IN_W` bits (R75). -/
abbrev InItem (P : Params) := BitVec P.inW

/-- A result item on OUT: `SYM_W` bits (R82). -/
abbrev OutItem (P : Params) := BitVec P.symW

/-- A response word on RSP: `8 + SYM_W + LEN_W` bits (R84). -/
abbrev RspWord (P : Params) := BitVec P.rspW

/-- A code: a bit string, first bit first (R9, R87). -/
abbrev Code := List Bool

end Sys2Proof
end

