-- ==== Sys2Proof/Syntax.lean ====
section
/-! DEFINITION. The instruction set: the seven commands of 30_encoding rule R72, one constructor per row
of spec/opcode_table.json. The one field of the format is `LEN`, an unsigned count of operand items
(R70, R71). The operand items themselves are no part of the word: they arrive on IN (R52). -/

namespace Sys2Proof

/-- A command with its `LEN` (R70, R72). -/
inductive Instr where
  /-- BUILD_TEXT, `OP = 0x1` (R102). -/
  | buildText (len : Nat)
  /-- BUILD_FREQ, `OP = 0x2` (R103). -/
  | buildFreq (len : Nat)
  /-- LOAD_CODES, `OP = 0x3` (R135). -/
  | loadCodes (len : Nat)
  /-- ENCODE, `OP = 0x4` (R152). -/
  | encode (len : Nat)
  /-- DECODE, `OP = 0x5` (R155). -/
  | decode (len : Nat)
  /-- SAVE, `OP = 0x6` (R181). -/
  | save (len : Nat)
  /-- LOAD, `OP = 0x7` (R185). -/
  | load (len : Nat)
  deriving DecidableEq, Repr

/-- The `LEN` field of a command (R70). -/
def Instr.len : Instr → Nat
  | .buildText n => n
  | .buildFreq n => n
  | .loadCodes n => n
  | .encode n => n
  | .decode n => n
  | .save n => n
  | .load n => n

end Sys2Proof
end

