-- ==== Sys2Proof/WellFormed.lean ====
section
/-! DEFINITION. When a command is one a command word can carry: its `LEN` is in `0 … LEN_MAX` (30_encoding
rule R70). That is the only bound the format has. -/

namespace Sys2Proof

/-- `LEN` is in `0 … LEN_MAX` (R70). -/
def Instr.wellFormed (P : Params) (i : Instr) : Bool := decide (i.len ≤ P.lenMax)

end Sys2Proof
end

