-- ==== Sys2Proof/Decode.lean ====
section
/-! DEFINITION. The command decoder (30_encoding rules R70 to R74), total on every command word, and the
encoder beside it. -/

namespace Sys2Proof

/-- Why a word is no command (R73). -/
inductive DecodeError where
  /-- `RSVD ≠ 0`, whatever the opcode. -/
  | reservedBits (rsvd : BitVec 4)
  /-- `OP` is 0x0 or 0x8 to 0xF. -/
  | reservedOpcode (op : BitVec 4)
  deriving DecidableEq, Repr

/-- `OP`, bits [3:0] (R70). -/
def cmdOp {P : Params} (w : CmdWord P) : BitVec 4 := w.extractLsb' 0 4

/-- `RSVD`, bits [7:4] (R70). -/
def cmdRsvd {P : Params} (w : CmdWord P) : BitVec 4 := w.extractLsb' 4 4

/-- `LEN`, bits [8+LEN_W−1:8], an unsigned count used as it stands (R70, R71). It is read the same way from a
reserved word, whose operand is drained too (R52, R73). -/
def cmdLen {P : Params} (w : CmdWord P) : Nat := (w.extractLsb' 8 P.lenW).toNat

/-- The command an opcode names (R72); none for a reserved opcode (R73). -/
def ofOpcode (op : BitVec 4) (len : Nat) : Option Instr :=
  match op.toNat with
  | 1 => some (.buildText len)
  | 2 => some (.buildFreq len)
  | 3 => some (.loadCodes len)
  | 4 => some (.encode len)
  | 5 => some (.decode len)
  | 6 => some (.save len)
  | 7 => some (.load len)
  | _ => none

/-- The decoder, in the order of R74: first `RSVD`, then `OP`. -/
def decode {P : Params} (w : CmdWord P) : Except DecodeError Instr :=
  if cmdRsvd w ≠ 0 then .error (.reservedBits (cmdRsvd w))
  else match ofOpcode (cmdOp w) (cmdLen w) with
    | some i => .ok i
    | none => .error (.reservedOpcode (cmdOp w))

/-- The opcode of a command (R72). -/
def opcode : Instr → BitVec 4
  | .buildText _ => 0x1#4
  | .buildFreq _ => 0x2#4
  | .loadCodes _ => 0x3#4
  | .encode _ => 0x4#4
  | .decode _ => 0x5#4
  | .save _ => 0x6#4
  | .load _ => 0x7#4

/-- The word of a well-formed command: `LEN`, `RSVD = 0`, `OP` (R70). -/
def encode (P : Params) (i : Instr) : CmdWord P := BitVec.ofNat P.lenW i.len ++ 0x0#4 ++ opcode i

/-- The command the decoder reads from a row of the opcode table, at the default parameters (assumption
log 1): a command is ONE parallel word of `CMD_W` bits (R58, R70), so the table's bit numbering is the word's
own, and bits above `nbits` are 0. -/
def decodeTableWord (nbits w : Nat) : Option Instr :=
  match decode (P := Params.default) (BitVec.ofNat Params.default.cmdW (w % 2 ^ nbits)) with
  | .ok i => some i
  | .error _ => none

end Sys2Proof
end

