-- ==== Sys2Proof/Machine/State.lean ====
section
/-! DEFINITION. The machine's state as plain data: the persistent architectural state of 10_state rule
R22, the sequencer (R21) with what the engine holds while a command runs (20_memory rules R52, R54, R55),
and the host's side of the ports (R56). The state after reset is R37's. -/

namespace Sys2Proof.Machine

/-- `MODE`: three legal values (R23); the value 3 is never produced, so it has no constructor (R30). -/
inductive Mode where
  /-- EMPTY, 0: no tree, no valid book entry. -/
  | empty
  /-- TREE, 1: a tree, and the book derived from it. -/
  | tree
  /-- IMPORT, 2: a book set by LOAD_CODES, no tree. -/
  | imported
  deriving DecidableEq, Repr

/-- A tree node (R24). Weights are exact naturals; that each fits `WEIGHT_W` bits is an invariant
(assumption log 7). -/
inductive Node (P : Params) where
  /-- `Leaf(s, w)`. -/
  | leaf (s : Symbol P) (w : Nat)
  /-- `Internal(w, l, r)`: both children always present. -/
  | internal (w : Nat) (l r : Node P)
  deriving DecidableEq, Repr

/-- An internal memory indexed by symbol (R51): its entries that hold something, in strictly rising
symbol order (`Memory.wf` in Ops). An unlisted entry holds nothing (assumption log 8). -/
abbrev Memory (P : Params) (β : Type) := List (Symbol P × β)

/-- `BOOK`, the forward code table: the valid entries (R28). -/
abbrev Book (P : Params) := Memory P Code

/-- `FT`, the frequency table of one build: the symbols with a non-zero count (R33). -/
abbrev FreqTable (P : Params) := Memory P Nat

/-- The error kinds (R211). Codes 6, 7 and 11 to 15 are never produced. -/
inductive ErrorKind where
  | emptyInput
  | unknownSymbol
  | decodePrecondition
  | malformedBitstream
  | malformedTreeData
  | invalidOperand
  | capacity
  | illegalCommand
  deriving DecidableEq, Repr

/-- What `raise E(info)` names (R10, R214): the kind, and for UnknownSymbolError the symbol. -/
inductive Error (P : Params) where
  | emptyInput
  | unknownSymbol (s : Symbol P)
  | decodePrecondition
  | malformedBitstream
  | malformedTreeData
  | invalidOperand
  | capacity
  | illegalCommand
  deriving DecidableEq, Repr

/-- The coding state (R22): written only by BUILD_TEXT, BUILD_FREQ, LOAD_CODES and LOAD. -/
structure Coding (P : Params) where
  /-- `MODE` (R23). -/
  mode : Mode
  /-- `TREE`, `none` for null (R24). -/
  tree : Option (Node P)
  /-- `BOOK` (R28). -/
  book : Book P
  deriving DecidableEq, Repr

/-- The status fields every command writes when it completes (R22, R32). -/
structure Report (P : Params) where
  /-- `ERR`, `none` for success (R30, R211). -/
  err : Option ErrorKind
  /-- `ERRINFO` (R31). -/
  errinfo : Symbol P
  /-- `PARTIAL` (R30, R160). -/
  part : Bool
  deriving DecidableEq, Repr

/-- What the `status` and `errinfo` pins go on showing while a command runs (R250; assumption log 5). -/
structure Shown (P : Params) where
  mode : Mode
  report : Report P
  deriving DecidableEq, Repr

/-- How far the running command is (R52, R54, R55, R57). -/
inductive Phase (P : Params) where
  /-- The command word is accepted; `taken` are its operand items so far, `IN[0]` first. -/
  | operands (cmd : CmdWord P) (taken : List (InItem P))
  /-- The response word is on RSP; `out` is the staging buffer of result items. -/
  | respond (rsp : RspWord P) (out : List (OutItem P))
  /-- The response was taken; `out` are the result items not yet moved. -/
  | deliver (out : List (OutItem P))
  deriving DecidableEq, Repr

/-- The sequencer `SEQ` (R21). -/
inductive Seq (P : Params) where
  /-- IDLE: accepts the next command. -/
  | idle
  /-- RUN: executing one. -/
  | run (shown : Shown P) (phase : Phase P)
  deriving DecidableEq, Repr

/-- Everything the spec gives one engine with parameters `P`, and the host's side of its ports. -/
structure Engine (P : Params) where
  /-- MODE, TREE, BOOK (R22). -/
  coding : Coding P
  /-- ERR, ERRINFO, PARTIAL (R22). -/
  report : Report P
  /-- SEQ and the running command (R21). -/
  seq : Seq P
  /-- The reset input pin (R56, R240). -/
  rst : Bool
  /-- Command words the host presents on CMD, the one at the port first (R57). -/
  cmdIn : List (CmdWord P)
  /-- Operand items the host presents on IN, the one at the port first (R57). -/
  itemIn : List (InItem P)
  /-- The pin `rsp_ready` (R57). -/
  rspReady : Bool
  /-- The pin `out_ready` (R57). -/
  outReady : Bool
  /-- Response words the host has taken, oldest first. -/
  rspOut : List (RspWord P)
  /-- Result items the host has taken, oldest first. -/
  itemOut : List (OutItem P)
  deriving DecidableEq, Repr

/-- The whole state: an engine, and the parameters it is built with (R6). The parameters are arguments of
`exec` and not state (R38); they stand here because the form of `exec` and `step` is fixed to take a state
and nothing else. No step changes them (DESIGN CHOICE, assumption log 1). -/
structure State where
  /-- The parameters of R6. -/
  params : Params
  /-- The engine at these parameters. -/
  engine : Engine params
  deriving DecidableEq, Repr

/-- The reasons the machine can stop with a fault: there are none. Every error of 60_exceptions is a value
of a command's result, "not faults of the machine" (R223), `exec` is total (R11), and no operand can make
the engine stop responding (R222). Nobody raises one; having none is safe for claims (there is nothing
a step could hide behind; assumption log 16). -/
inductive Fault where
  deriving DecidableEq, Repr

/-- The reasons a step can be refused. -/
inductive Refusal where
  /-- Raised only by an arm of `exec` for an instruction without a meaning. No arm does: all seven commands
  have theirs. Safe: it would stop the run. -/
  | notModelled (mnemonic : String)
  deriving DecidableEq, Repr

/-- The coding state after reset (R37). -/
def Coding.reset {P : Params} : Coding P := { mode := .empty, tree := none, book := [] }

/-- The status fields after reset (R37). -/
def Report.reset {P : Params} : Report P := { err := none, errinfo := 0#P.symW, part := false }

/-- An engine right after reset (R37): SEQ IDLE, MODE EMPTY, no tree, no valid book entry, status clear.
The host's side of the ports has no reset value in the spec: nothing presented, nothing taken, both
`ready` pins up, `rst` released (DESIGN CHOICE, unsafe, assumption log 3). -/
def Engine.reset {P : Params} : Engine P :=
  { coding := Coding.reset
    report := Report.reset
    seq := .idle
    rst := false
    cmdIn := []
    itemIn := []
    rspReady := true
    outReady := true
    rspOut := []
    itemOut := [] }

/-- The machine right after reset (R37), at the default parameters of R6. -/
def State.reset : State := { params := Params.default, engine := Engine.reset }

end Sys2Proof.Machine
end

