-- ==== Sys2Proof/Machine/Flags.lean ====
section
/-! DEFINITION. The status word, the error codes and the response word (10_state rules R30, R31; 60_exceptions
rule R211; 30_encoding rule R84). These are the engine's only flags (R40). -/

namespace Sys2Proof.Machine

variable {P : Params}

/-- The number of a mode (R23). -/
def Mode.code : Mode → BitVec 2
  | .empty => 0#2
  | .tree => 1#2
  | .imported => 2#2

/-- The number of an error kind (R211). -/
def ErrorKind.code : ErrorKind → BitVec 4
  | .emptyInput => 1#4
  | .unknownSymbol => 2#4
  | .decodePrecondition => 3#4
  | .malformedBitstream => 4#4
  | .malformedTreeData => 5#4
  | .invalidOperand => 8#4
  | .capacity => 9#4
  | .illegalCommand => 10#4

/-- The field `ERR`: 0 for success (R30). -/
def errField : Option ErrorKind → BitVec 4
  | none => 0#4
  | some k => k.code

/-- The kind of a raised error (R211). -/
def Error.kind : Error P → ErrorKind
  | .emptyInput => .emptyInput
  | .unknownSymbol _ => .unknownSymbol
  | .decodePrecondition => .decodePrecondition
  | .malformedBitstream => .malformedBitstream
  | .malformedTreeData => .malformedTreeData
  | .invalidOperand => .invalidOperand
  | .capacity => .capacity
  | .illegalCommand => .illegalCommand

/-- What a raised error writes to `ERRINFO`: the symbol for UnknownSymbolError, else 0 (R31, R214). -/
def Error.info : Error P → Symbol P
  | .unknownSymbol s => s
  | .emptyInput => 0#P.symW
  | .decodePrecondition => 0#P.symW
  | .malformedBitstream => 0#P.symW
  | .malformedTreeData => 0#P.symW
  | .invalidOperand => 0#P.symW
  | .capacity => 0#P.symW
  | .illegalCommand => 0#P.symW

/-- `STATUS`: ERR [7:4], PARTIAL [3], MODE [2:1], BUSY [0] (R30). -/
def statusWord (busy : Bool) (mode : Mode) (r : Report P) : BitVec 8 :=
  errField r.err ++ BitVec.ofBool r.part ++ mode.code ++ BitVec.ofBool busy

/-- The response word: OUTLEN [8+SYM_W+LEN_W−1:8+SYM_W], ERRINFO [8+SYM_W−1:8],
STATUS [7:0] with BUSY shown as 0 (R84). -/
def responseWord (mode : Mode) (r : Report P) (outLen : Nat) : RspWord P :=
  BitVec.ofNat P.lenW outLen ++ r.errinfo ++ statusWord false mode r

/-- `STATUS` of a response word, bits [7:0] (R84). -/
def rspStatus (w : RspWord P) : BitVec 8 := w.extractLsb' 0 8

/-- `ERRINFO` of a response word, bits [8+SYM_W−1:8] (R84). -/
def rspErrinfo (w : RspWord P) : Symbol P := w.extractLsb' 8 P.symW

/-- `OUTLEN` of a response word, bits [8+SYM_W+LEN_W−1:8+SYM_W] (R84). -/
def rspOutLen (w : RspWord P) : Nat := (w.extractLsb' (8 + P.symW) P.lenW).toNat

/-- `ERR` of a response word, `rsp_data[7:4]` (R84). -/
def rspErr (w : RspWord P) : BitVec 4 := w.extractLsb' 4 4

end Sys2Proof.Machine
end

