-- ==== Sys2Proof/Machine/Operands.lean ====
section
/-! DEFINITION. The operand item formats of 30_encoding section 2. A field is cut from the item at its bit
position and used at its own width; the bits above the format's top bit are ignored (R61, R66, R75). -/

namespace Sys2Proof.Machine

variable {P : Params}

/-- The symbol or character of an item, bits [SYM_W−1:0] (R76, R77, R79, R80). -/
def itemSymbol (x : InItem P) : Symbol P := x.extractLsb' 0 P.symW

/-- The count of a frequency pair or the code length of a record header, bits
[SYM_W+WEIGHT_W−1:SYM_W], unsigned (R79, R80). -/
def itemCount (x : InItem P) : Nat := (x.extractLsb' P.symW P.weightW).toNat

/-- The bit of a bit item, bit [0] (R78). -/
def itemBit (x : InItem P) : Bool := x.getLsbD 0

/-- Symbol items as a text (R76), or character items as data (R77). -/
def itemSymbols (xs : List (InItem P)) : List (Symbol P) := xs.map itemSymbol

/-- Bit items as a bit string, first bit first (R78). -/
def itemBits (xs : List (InItem P)) : Code := xs.map itemBit

/-- The result item of a bit: the bit in `out_data[0]`, 0 above it (R66, R82). -/
def bitItem (b : Bool) : OutItem P := (BitVec.ofBool b).zeroExtend P.symW

/-- How the host carries a result item of one command to the operand of another: the item's bits at the
bottom of `in_data` (R89). -/
def carryItem (x : OutItem P) : InItem P := x.zeroExtend P.inW

/-- The item of a pair or of a record header, symbol below count (R79, R80). -/
def pairItem (s : Symbol P) (n : Nat) : InItem P := BitVec.ofNat P.weightW n ++ s

end Sys2Proof.Machine
end

