-- ==== Sys2Proof/Machine/Ops.lean ====
section
/-! DEFINITION. The shared operations: the internal memories (MemRead and MemWrite of 00_scope rule R10),
a command's operand, its completion with success or with an error (10_state R32; 20_memory R54, R55;
60_exceptions R214, R215), the channels (R57) and reset (70 R240, R241). -/

namespace Sys2Proof.Machine

variable {P : Params}

/-! ### Internal memories (R51): one whole entry per access -/

/-- `MemRead(M, a)`: the entry, or nothing where the memory holds nothing. -/
def Memory.read {β : Type} : Memory P β → Symbol P → Option β
  | [], _ => none
  | (k, v) :: m, a => if k = a then some v else Memory.read m a

/-- `MemWrite(M, a, v)`: replaces or inserts the entry, keeping the rising order. -/
def Memory.write {β : Type} : Memory P β → Symbol P → β → Memory P β
  | [], a, v => [(a, v)]
  | (k, u) :: m, a, v =>
    if a < k then (a, v) :: (k, u) :: m
    else if k = a then (a, v) :: m
    else (k, u) :: Memory.write m a v

/-- The canonical form: symbols strictly rising (in the order of R7). -/
def Memory.wf {β : Type} : Memory P β → Bool
  | [] => true
  | [_] => true
  | (a, _) :: (b, v) :: m => decide (a < b) && Memory.wf ((b, v) :: m)

/-! ### A command's operand -/

/-- The operand items of the running command taken so far (R52); none when no command is taking any. -/
def Engine.taken (s : Engine P) : List (InItem P) :=
  match s.seq with
  | .run _ (.operands _ xs) => xs
  | .run _ (.respond _ _) => []
  | .run _ (.deliver _) => []
  | .idle => []

/-- `IN[0 … LEN−1]`: the first `LEN` items the command took (R52; assumption log 4). -/
def Engine.operand (len : Nat) (s : Engine P) : List (InItem P) := s.taken.take len

/-! ### Completing a command -/

/-- MODE, ERR, ERRINFO, PARTIAL as they stand. -/
def Engine.current (s : Engine P) : Shown P := { mode := s.coding.mode, report := s.report }

/-- What the pins show: while a command runs, the state before it (R250). -/
def Engine.shown (s : Engine P) : Shown P :=
  match s.seq with
  | .idle => s.current
  | .run h _ => h

/-- The status fields of a command that ended with success (R32). -/
def Report.success (part : Bool) : Report P := { err := none, errinfo := 0#P.symW, part := part }

/-- The status fields of a command that raised `e` (R32, R214). -/
def Report.failure (e : Error P) : Report P := { err := some e.kind, errinfo := e.info, part := false }

/-- The one step in which the persistent state takes its new value and the response word becomes valid,
the result items staged behind it (R54, R55). The host's side of the ports is not touched. SEQ stays RUN
until the response and the result items have moved, as R55 says (assumption log 18). -/
def Engine.complete (c : Coding P) (r : Report P) (out : List (OutItem P)) (s : Engine P) : Engine P :=
  { s with
    coding := c
    report := r
    seq := .run s.shown (.respond (responseWord c.mode r out.length) out) }

/-- What a command that succeeds leaves and delivers: `return OK` (R10, R54). -/
structure Done (P : Params) where
  coding : Coding P
  out : List (OutItem P)
  part : Bool
  deriving DecidableEq, Repr

/-- `raise E(info)`: MODE, TREE, BOOK as they were, ERR and ERRINFO written, PARTIAL 0, no result item
(R214, R215). R214 lists `SEQ <- IDLE` in the same step, where R55 lets SEQ return to IDLE when the response
word has moved; the model takes R55's moment (DEDUCED, assumption log 18). -/
def Engine.raise (e : Error P) (s : Engine P) : Engine P :=
  s.complete s.coding (Report.failure e) []

/-- The end of a command: with its result, or with its error (R11, R54). -/
def finish (s : Engine P) : Except (Error P) (Done P) → Host.Outcome State Fault Refusal
  | .ok d => .next ⟨P, s.complete d.coding (Report.success d.part) d.out⟩
  | .error e => .next ⟨P, s.raise e⟩

/-! ### The channels: each moves one word when `valid` and `ready` are both 1 (R57) -/

/-- CMD: an idle engine accepts the presented word; with none presented it stays idle (R57). -/
def Engine.acceptCommand (s : Engine P) : Engine P :=
  match s.cmdIn with
  | [] => s
  | w :: ws => { s with cmdIn := ws, seq := .run s.current (.operands w []) }

/-- IN: the running command takes the presented item; with none presented it waits (R52, R251). -/
def Engine.takeItem (h : Shown P) (w : CmdWord P) (taken : List (InItem P)) (s : Engine P) : Engine P :=
  match s.itemIn with
  | [] => s
  | x :: xs => { s with itemIn := xs, seq := .run h (.operands w (taken ++ [x])) }

/-- SEQ once the response has moved and `out` is left to deliver: IDLE when nothing is left (R55). -/
def seqAfter (h : Shown P) : List (OutItem P) → Seq P
  | [] => .idle
  | x :: xs => .run h (.deliver (x :: xs))

/-- RSP: the response word moves when the host is ready (R55, R251). -/
def Engine.moveResponse (h : Shown P) (rsp : RspWord P) (out : List (OutItem P)) (s : Engine P) : Engine P :=
  if s.rspReady then { s with rspOut := s.rspOut ++ [rsp], seq := seqAfter h out } else s

/-- OUT: the next result item moves when the host is ready (R54, R251). -/
def Engine.moveItem (h : Shown P) (out : List (OutItem P)) (s : Engine P) : Engine P :=
  match out with
  | [] => { s with seq := .idle }
  | x :: xs => if s.outReady then { s with itemOut := s.itemOut ++ [x], seq := seqAfter h xs } else s

/-! ### Reset -/

/-- A clock edge with `rst = 1`: the engine takes the reset state, a running command is abandoned, and
what the host has not handed over stays the host's (R240, R241). -/
def Engine.resetEngine (s : Engine P) : Engine P :=
  { s with coding := Coding.reset, report := Report.reset, seq := .idle }

end Sys2Proof.Machine
end

