-- ==== Sys2Proof/Machine/Codebook.lean ====
section
/-! DEFINITION. DERIVE, the install of a tree with its book, and LOAD_CODES (41_codebook; 40_tree_build
rule R104; 43_serializer rule R186). -/

namespace Sys2Proof.Machine

variable {P : Params}

/-- `WALK(node, path, B)`: left with 0 first, then right with 1; a leaf writes its entry (R130, R134). -/
def walkTree : Node P → Code → Book P → Book P
  | .leaf s _, path, b => Memory.write b s path
  | .internal _ l r, path, b => walkTree r (path ++ [true]) (walkTree l (path ++ [false]) b)

/-- `DERIVE(t)`: from the book with every entry invalid (R130); null gives that book (R132). -/
def derive : Option (Node P) → Book P
  | none => []
  | some t => walkTree t [] []

/-- `TREE <- t; BOOK <- DERIVE(t); MODE <- TREE`, in one step (R104, R186). -/
def installTree (t : Node P) : Coding P := { mode := .tree, tree := some t, book := derive (some t) }

/-- The loop of LOAD_CODES over the records left, one record a turn: header tests in the order of R136,
then the record's `n` bits. Every turn takes at least one item, so `fuel` = number of items is enough
(assumption log 13). -/
def importRecords : Nat → List (InItem P) → Book P → Except (Error P) (Book P)
  | _, [], b => .ok b
  | 0, _ :: _, _ => .error .invalidOperand
  | fuel + 1, h :: rest, b =>
    if P.codeMax < itemCount h then .error .capacity
    else if rest.length < itemCount h then .error .invalidOperand
    else if (Memory.read b (itemSymbol h)).isSome then .error .invalidOperand
    else importRecords fuel (rest.drop (itemCount h))
      (Memory.write b (itemSymbol h) (itemBits (rest.take (itemCount h))))

/-- The book LOAD_CODES sets, or its error (R135, R136). Nothing else is checked (R137). -/
def importBook (xs : List (InItem P)) : Except (Error P) (Book P) := importRecords xs.length xs []

/-- LOAD_CODES as a function of its operand: the book replaced, the tree discarded, MODE IMPORT (R135,
R27). It reads no persistent state. -/
def loadCodesResult (xs : List (InItem P)) : Except (Error P) (Done P) :=
  match importBook xs with
  | .ok b => .ok { coding := { mode := .imported, tree := none, book := b }, out := [], part := false }
  | .error e => .error e

/-- LOAD_CODES (R135). -/
def execLoadCodes (len : Nat) : State → Host.Outcome State Fault Refusal
  | ⟨_, s⟩ => finish s (loadCodesResult (s.operand len))

end Sys2Proof.Machine
end

