-- ==== Sys2Proof/Machine/Build.lean ====
section
/-! DEFINITION. The priority merge engine: BUILD, BUILD_TEXT, BUILD_FREQ (40_tree_build). -/

namespace Sys2Proof.Machine

variable {P : Params}

/-! ### The frequency table FT (R33): an unlisted symbol counts 0 -/

/-- `FT[s]` (R33). -/
def countOf (ft : FreqTable P) (s : Symbol P) : Nat := (Memory.read ft s).getD 0

/-- `FT[s] <- FT[s] + 1` for each symbol of the text in turn (R102). -/
def countText : List (Symbol P) → FreqTable P → FreqTable P
  | [], ft => ft
  | s :: text, ft => countText text (Memory.write ft s (countOf ft s + 1))

/-- The operand scan of BUILD_FREQ, item by item: zero count, then repeated symbol, then the entry
(R103, R116, R117). -/
def fillPairs : List (InItem P) → FreqTable P → Except (Error P) (FreqTable P)
  | [], ft => .ok ft
  | x :: xs, ft =>
    if itemCount x = 0 then .error .invalidOperand
    else if countOf ft (itemSymbol x) ≠ 0 then .error .invalidOperand
    else fillPairs xs (Memory.write ft (itemSymbol x) (itemCount x))

/-! ### The priority collection PQ (R34, R105, R106) -/

/-- The weight of a node (R24). -/
def nodeWeight : Node P → Nat
  | .leaf _ w => w
  | .internal w _ _ => w

/-- A node in PQ with its sequence number (R105). -/
structure Entry (P : Params) where
  seq : Nat
  node : Node P
  deriving DecidableEq, Repr

/-- The key order: `(w1, q1) < (w2, q2)` (R106). -/
def Entry.before (a b : Entry P) : Bool :=
  decide (nodeWeight a.node < nodeWeight b.node) ||
    (decide (nodeWeight a.node = nodeWeight b.node) && decide (a.seq < b.seq))

/-- The leaves `Leaf(S[i], FT[S[i]])` with `seq = i`: FT lists its symbols in rising order (R105). -/
def leafEntries : Nat → FreqTable P → List (Entry P)
  | _, [] => []
  | i, (s, w) :: ft => { seq := i, node := .leaf s w } :: leafEntries (i + 1) ft

/-- `popmin(PQ)`: the entry with the least key, and what is left (R106). -/
def popMin : List (Entry P) → Option (Entry P × List (Entry P))
  | [] => none
  | e :: es =>
    match popMin es with
    | none => some (e, [])
    | some (m, rest) => if e.before m then some (e, es) else some (m, e :: rest)

/-- One turn of the merge: the two least nodes become the left and the right child of a new node whose
weight is their exact sum; a sum over `2^WEIGHT_W − 1` is CapacityError (R107, R109, R118). With fewer than
two nodes there is no turn to make (assumption log 13). -/
def mergeStep (pq : List (Entry P)) (nseq : Nat) : Except (Error P) (List (Entry P)) :=
  match popMin pq with
  | none => .ok pq
  | some (a, pq1) =>
    match popMin pq1 with
    | none => .ok pq
    | some (b, pq2) =>
      if P.weightMax < nodeWeight a.node + nodeWeight b.node then .error .capacity
      else .ok ({ seq := nseq,
                  node := .internal (nodeWeight a.node + nodeWeight b.node) a.node b.node } :: pq2)

/-- `k` turns of the merge, `NSEQ` rising by one each turn (R106, R107). -/
def mergeTimes : Nat → List (Entry P) → Nat → Except (Error P) (List (Entry P))
  | 0, pq, _ => .ok pq
  | k + 1, pq, nseq =>
    match mergeStep pq nseq with
    | .ok pq' => mergeTimes k pq' (nseq + 1)
    | .error e => .error e

/-- `BUILD(FT)`: `n` leaves, `n − 1` turns, the one node left (R105 to R108). An empty table never comes
here: phase 1 has refused it (R105); HED's "contract fails if empty" is EmptyInputError (R115; assumption log 13). -/
def build (ft : FreqTable P) : Except (Error P) (Node P) :=
  match mergeTimes (ft.length - 1) (leafEntries 0 ft) ft.length with
  | .ok (e :: _) => .ok e.node
  | .ok [] => .error .emptyInput
  | .error e => .error e

/-! ### The two commands -/

/-- The tree of a text (R102): the empty operand is tested first (R115). -/
def buildTextTree (xs : List (InItem P)) : Except (Error P) (Node P) :=
  if xs = [] then .error .emptyInput else build (countText (itemSymbols xs) [])

/-- The tree of a table of pairs (R103): empty operand, then the pairs in order, then the merge (R216). -/
def buildFreqTree (xs : List (InItem P)) : Except (Error P) (Node P) :=
  if xs = [] then .error .emptyInput
  else match fillPairs xs [] with
    | .ok ft => build ft
    | .error e => .error e

/-- The install phase of both commands (R100, R104). -/
def installResult : Except (Error P) (Node P) → Except (Error P) (Done P)
  | .ok t => .ok { coding := installTree t, out := [], part := false }
  | .error e => .error e

/-- BUILD_TEXT (R102). -/
def execBuildText (len : Nat) : State → Host.Outcome State Fault Refusal
  | ⟨_, s⟩ => finish s (installResult (buildTextTree (s.operand len)))

/-- BUILD_FREQ (R103). -/
def execBuildFreq (len : Nat) : State → Host.Outcome State Fault Refusal
  | ⟨_, s⟩ => finish s (installResult (buildFreqTree (s.operand len)))

end Sys2Proof.Machine
end

