-- ==== Sys2Proof/Machine/Codec.lean ====
section
/-! DEFINITION. The codec: ENCODE and DECODE (42_codec). Neither changes MODE, TREE or BOOK. -/

namespace Sys2Proof.Machine

variable {P : Params}

/-- The loop of ENCODE; `n` bits are already pushed. For each symbol: absent is UnknownSymbolError, then
its code is pushed, then the length test (R152, R164). -/
def encodeText (b : Book P) : List (Symbol P) → Nat → Except (Error P) Code
  | [], _ => .ok []
  | s :: text, n =>
    match Memory.read b s with
    | none => .error (.unknownSymbol s)
    | some c =>
      if P.lenMax < n + c.length then .error .capacity
      else match encodeText b text (n + c.length) with
        | .ok bits => .ok (c ++ bits)
        | .error e => .error e

/-- ENCODE as a function of the coding state and the operand; it reads BOOK only (R151). -/
def encodeResult (c : Coding P) (xs : List (InItem P)) : Except (Error P) (Done P) :=
  match encodeText c.book (itemSymbols xs) 0 with
  | .ok bits => .ok { coding := c, out := bits.map bitItem, part := false }
  | .error e => .error e

/-- ENCODE (R152). -/
def execEncode (len : Nat) : State → Host.Outcome State Fault Refusal
  | ⟨_, s⟩ => finish s (encodeResult s.coding (s.operand len))

/-- The walk of DECODE from `CUR` with `MID`, over the bits left: a bit at a leaf is
MalformedBitstreamError; else move (0 left, 1 right), and at a leaf emit its symbol and restart from the
root. Answers the symbols and the last `MID` (R155, R157, R158, R160). -/
def walkBits (root : Node P) : Node P → Bool → Code → Except (Error P) (List (Symbol P) × Bool)
  | _, mid, [] => .ok ([], mid)
  | .leaf _ _, _, _ :: _ => .error .malformedBitstream
  | .internal _ l r, _, b :: bits =>
    match (if b then r else l) with
    | .leaf s _ =>
      match walkBits root root false bits with
      | .ok (text, mid) => .ok (s :: text, mid)
      | .error e => .error e
    | .internal w l' r' => walkBits root (.internal w l' r') true bits

/-- DECODE as a function of the coding state and the operand: the precondition first (R156), then the
walk (R155). It reads TREE and MODE, not BOOK (R162). -/
def decodeResult (c : Coding P) (xs : List (InItem P)) : Except (Error P) (Done P) :=
  match c.mode, c.tree with
  | .tree, some t =>
    match walkBits t t false (itemBits xs) with
    | .ok (text, mid) => .ok { coding := c, out := text, part := mid }
    | .error e => .error e
  | .tree, none => .error .decodePrecondition
  | .empty, _ => .error .decodePrecondition
  | .imported, _ => .error .decodePrecondition

/-- DECODE (R155). -/
def execDecode (len : Nat) : State → Host.Outcome State Fault Refusal
  | ⟨_, s⟩ => finish s (decodeResult s.coding (s.operand len))

end Sys2Proof.Machine
end

