-- ==== Sys2Proof/Machine/Serializer.lean ====
section
/-! DEFINITION. The tree serializer and deserializer: SAVE and LOAD (43_serializer). -/

namespace Sys2Proof.Machine

variable {P : Params}

/-- `SER` of a node: preorder, the leaf marker then its raw symbol; weights are not read (R180, R183). -/
def serNode : Node P → List (Symbol P)
  | .leaf s _ => [P.markLeaf, s]
  | .internal _ l r => P.markInternal :: (serNode l ++ serNode r)

/-- `SER`: the null tree is the empty string (R180). -/
def ser : Option (Node P) → List (Symbol P)
  | none => []
  | some t => serNode t

/-- What SAVE writes: the tree only in MODE TREE; MODE EMPTY and IMPORT have none (R181, R182). -/
def savedString (c : Coding P) : List (Symbol P) :=
  match c.mode with
  | .tree => ser c.tree
  | .empty => []
  | .imported => []

/-- SAVE as a function of the coding state (R181). -/
def saveResult (c : Coding P) : Except (Error P) (Done P) :=
  if P.lenMax < (savedString c).length then .error .capacity
  else .ok { coding := c, out := savedString c, part := false }

/-- SAVE (R181): its `LEN` items, if any, were taken and are ignored (R81). -/
def execSave (_len : Nat) : State → Host.Outcome State Fault Refusal
  | ⟨_, s⟩ => finish s (saveResult s.coding)

/-- `PARSE` on the characters left: one node and what follows it (R187). New nodes weigh 0 (R188).
Every nested call has at least one character less, so `fuel` = number of characters is enough
(assumption log 13). -/
def parseNode : Nat → List (Symbol P) → Except (Error P) (Node P × List (Symbol P))
  | _, [] => .error .malformedTreeData
  | 0, _ :: _ => .error .malformedTreeData
  | fuel + 1, m :: rest =>
    if m = P.markLeaf then
      match rest with
      | [] => .error .malformedTreeData
      | s :: rest' => .ok (.leaf s 0, rest')
    else if m = P.markInternal then
      match parseNode fuel rest with
      | .error e => .error e
      | .ok (l, rest1) =>
        match parseNode fuel rest1 with
        | .error e => .error e
        | .ok (r, rest2) => .ok (.internal 0 l r, rest2)
    else .error .malformedTreeData

/-- `PARSE(0)`. -/
def parse (data : List (Symbol P)) : Except (Error P) (Node P × List (Symbol P)) :=
  parseNode data.length data

/-- The leaf symbols of a tree, left to right. -/
def leafSymbols : Node P → List (Symbol P)
  | .leaf s _ => [s]
  | .internal _ l r => leafSymbols l ++ leafSymbols r

/-- LOAD as a function of its operand (R185): empty data installs the null tree (R191); else the parse,
the trailing-data test (R194), the repeated-symbol test (R190), the install (R186; assumption log 17). -/
def loadResult (xs : List (InItem P)) : Except (Error P) (Done P) :=
  if xs = [] then .ok { coding := { mode := .empty, tree := none, book := [] }, out := [], part := false }
  else match parse (itemSymbols xs) with
    | .error e => .error e
    | .ok (t, rest) =>
      if rest ≠ [] then .error .malformedTreeData
      else if ¬ (leafSymbols t).Nodup then .error .malformedTreeData
      else .ok { coding := installTree t, out := [], part := false }

/-- LOAD (R185). -/
def execLoad (len : Nat) : State → Host.Outcome State Fault Refusal
  | ⟨_, s⟩ => finish s (loadResult (s.operand len))

end Sys2Proof.Machine
end

