-- ==== Sys2Proof/Machine/Dispatch.lean ====
section
/-! DEFINITION. One arm per command of 30_encoding rule R72. -/

namespace Sys2Proof.Machine

/-- The meaning of a command: `exec` of 00_scope rule R11, on the operand the engine has taken. -/
def exec (i : Instr) (s : State) : Host.Outcome State Fault Refusal :=
  match i with
  | .buildText len => Sys2Proof.Machine.execBuildText len s
  | .buildFreq len => Sys2Proof.Machine.execBuildFreq len s
  | .loadCodes len => Sys2Proof.Machine.execLoadCodes len s
  | .encode len => Sys2Proof.Machine.execEncode len s
  | .decode len => Sys2Proof.Machine.execDecode len s
  | .save len => Sys2Proof.Machine.execSave len s
  | .load len => Sys2Proof.Machine.execLoad len s

end Sys2Proof.Machine
end

