-- ==== Sys2Proof/Machine/Ports.lean ====
section
/-! DEFINITION. What the engine drives on its ports in a state (20_memory rules R56, R57; 70 R240; 10_state
R30, R31). Nothing here is stored. While `rst` is 1 no output is valid and nothing is ready (R240). -/

namespace Sys2Proof.Machine

variable {P : Params}

/-- `BUSY`: 1 while SEQ is RUN (R30). -/
def Engine.busy (s : Engine P) : Bool :=
  match s.seq with
  | .idle => false
  | .run _ _ => true

/-- The pins `status[7:0]` (R30, R250). -/
def Engine.statusPins (s : Engine P) : BitVec 8 := statusWord s.busy s.shown.mode s.shown.report

/-- The pins `errinfo` (R31, R250). -/
def Engine.errinfoPins (s : Engine P) : Symbol P := s.shown.report.errinfo

/-- `cmd_ready`: exactly when SEQ is IDLE and `rst` is 0 (R57). -/
def Engine.cmdReady (s : Engine P) : Bool := !s.rst && !s.busy

/-- `in_ready`: only while the running command still has operand items to take (R57). -/
def Engine.inReady (s : Engine P) : Bool :=
  match s.seq with
  | .run _ (.operands w xs) => !s.rst && decide (xs.length < cmdLen w)
  | .run _ (.respond _ _) => false
  | .run _ (.deliver _) => false
  | .idle => false

/-- `rsp_data` while `rsp_valid` is 1; with `rsp_valid` 0 the spec gives no value (U31), and this answers
none (assumption log 9). -/
def Engine.rspData (s : Engine P) : Option (RspWord P) :=
  match s.seq with
  | .run _ (.respond w _) => if s.rst then none else some w
  | .run _ (.operands _ _) => none
  | .run _ (.deliver _) => none
  | .idle => none

/-- `rsp_valid` (R56). -/
def Engine.rspValid (s : Engine P) : Bool := s.rspData.isSome

/-- `out_data` while `out_valid` is 1; otherwise none, as `rspData`. The response precedes the result items
(R55), so an item is offered only once the response has moved. -/
def Engine.outData (s : Engine P) : Option (OutItem P) :=
  match s.seq with
  | .run _ (.deliver out) => if s.rst then none else out.head?
  | .run _ (.operands _ _) => none
  | .run _ (.respond _ _) => none
  | .idle => none

/-- `out_valid` (R56). -/
def Engine.outValid (s : Engine P) : Bool := s.outData.isSome

end Sys2Proof.Machine
end

