-- ==== Sys2Proof/Machine/Step.lean ====
section
/-! DEFINITION. One step of the engine: reset, or the one word that can move, or the running command
(10_state R21; 20_memory R52, R55, R57; 70 R240). At most one channel can move in any state, so a step moves
at most one word (assumption log 2). A wait (R251) is a step that changes nothing (assumption
log 15). -/

namespace Sys2Proof.Machine

variable {P : Params}

/-- The accepted command, its operand complete: decoded and run; a reserved word is IllegalCommandError,
nothing else (R73, R74, R218). -/
def runCommand (w : CmdWord P) (s : Engine P) : Host.Outcome State Fault Refusal :=
  match decode w with
  | .ok i => exec i ⟨P, s⟩
  | .error _ => .next ⟨P, s.raise .illegalCommand⟩

/-- One step. The engine takes exactly `LEN` items before it runs the command, whatever the word (R52). -/
def step : State → Host.Outcome State Fault Refusal
  | ⟨P, s⟩ =>
    if s.rst then .next ⟨P, s.resetEngine⟩
    else match s.seq with
      | .idle => .next ⟨P, s.acceptCommand⟩
      | .run h (.operands w taken) =>
        if taken.length < cmdLen w then .next ⟨P, s.takeItem h w taken⟩ else runCommand w s
      | .run h (.respond rsp out) => .next ⟨P, s.moveResponse h rsp out⟩
      | .run h (.deliver out) => .next ⟨P, s.moveItem h out⟩

/-- The engine about to run the command whose word is `w`: accepted on CMD, with an operand of `LEN` zero
items taken and reset released (assumption log 12). -/
def Engine.aboutToRun (w : CmdWord P) (s : Engine P) : Engine P :=
  { s with
    rst := false
    seq := .run s.shown (.operands w (List.replicate (cmdLen w) 0)) }

/-- The machine about to run the command whose word is `w`, the bits above `nbits` being 0. -/
def State.withFetchWord (s : State) (nbits w : Nat) : State :=
  ⟨s.params, s.engine.aboutToRun (BitVec.ofNat s.params.cmdW (w % 2 ^ nbits))⟩

end Sys2Proof.Machine
end

