-- ==== Sys2Proof/Machine/Arena.lean ====
section
/-! DEFINITION. The arena form of the tree (10_state rules R34, R36; 20_memory R51): node slots numbered by
an index, PQ holding keys and node indices. It is "one way to hold TREE in hardware" and "not architectural"
(R36), so State holds the tree itself (R24) and `exec` never reads an arena; the obligations say that an
arena filled as R36 says denotes the tree that is installed. -/

namespace Sys2Proof.Machine

variable {P : Params}

/-- A node slot: kind, symbol, weight, left and right index (R36). -/
inductive Slot (P : Params) where
  | leaf (sym : Symbol P) (weight : Nat)
  | internal (weight left right : Nat)
  deriving DecidableEq, Repr

/-- Slots by index, slot 0 first (R36). -/
abbrev Arena (P : Params) := List (Slot P)

/-- The node a slot index stands for, following at most `fuel` levels; none for an index without a slot. -/
def arenaNode : Nat → Arena P → Nat → Option (Node P)
  | 0, _, _ => none
  | fuel + 1, a, i =>
    match a[i]? with
    | none => none
    | some (.leaf s w) => some (.leaf s w)
    | some (.internal w l r) =>
      match arenaNode fuel a l, arenaNode fuel a r with
      | some x, some y => some (.internal w x y)
      | none, _ => none
      | some _, none => none

/-- An entry of the hardware PQ: the key, whose `seq` is the node index too (R36, R51). -/
structure Key where
  weight : Nat
  seq : Nat
  deriving DecidableEq, Repr

/-- The key order (R106). -/
def Key.before (a b : Key) : Bool :=
  decide (a.weight < b.weight) || (decide (a.weight = b.weight) && decide (a.seq < b.seq))

/-- `popmin` on keys (R106). -/
def popKey : List Key → Option (Key × List Key)
  | [] => none
  | k :: ks =>
    match popKey ks with
    | none => some (k, [])
    | some (m, rest) => if k.before m then some (k, ks) else some (m, k :: rest)

/-- The leaves in slots `0 … n−1`, in ascending symbol order (R36, R105). -/
def leafSlots (ft : FreqTable P) : Arena P := ft.map (fun e => Slot.leaf e.1 e.2)

/-- The keys of the leaves from index `i` on (R105). -/
def leafKeys : Nat → FreqTable P → List Key
  | _, [] => []
  | i, (_, w) :: ft => { weight := w, seq := i } :: leafKeys (i + 1) ft

/-- `k` turns of the merge on the arena: each fills the next slot, whose index is the new node's `seq`
(R36, R107). -/
def arenaTimes : Nat → List Key → Arena P → Except (Error P) (List Key × Arena P)
  | 0, pq, a => .ok (pq, a)
  | k + 1, pq, a =>
    match popKey pq with
    | none => .ok (pq, a)
    | some (x, pq1) =>
      match popKey pq1 with
      | none => .ok (pq, a)
      | some (y, pq2) =>
        if P.weightMax < x.weight + y.weight then .error .capacity
        else arenaTimes k ({ weight := x.weight + y.weight, seq := a.length } :: pq2)
          (a ++ [.internal (x.weight + y.weight) x.seq y.seq])

/-- BUILD on the arena: the slots and `ROOT` (R36). -/
def buildArena (ft : FreqTable P) : Except (Error P) (Arena P × Nat) :=
  match arenaTimes (ft.length - 1) (leafKeys 0 ft) (leafSlots ft) with
  | .ok (k :: _, a) => .ok (a, k.seq)
  | .ok ([], _) => .error .emptyInput
  | .error e => .error e

/-- LOAD's slots: preorder from index `base` (R36). -/
def preorderSlots : Node P → Nat → Arena P
  | .leaf s w, _ => [.leaf s w]
  | .internal w l r, base =>
    .internal w (base + 1) (base + 1 + (preorderSlots l (base + 1)).length) ::
      (preorderSlots l (base + 1) ++
        preorderSlots r (base + 1 + (preorderSlots l (base + 1)).length))

end Sys2Proof.Machine
end

