-- ==== Sys2Proof/Safety.lean ====
section
/-! DEFINITION. The terms claims are stated in: a command as a function of the coding state and its operand
(00_scope rule R11), the shape of a tree (10_state R25), and the invariant of the engine (R23, R25, R28,
R32; 20_memory R52, R54, R55). -/

namespace Sys2Proof.Machine

variable {P : Params}

/-- A command as R11 has it: from the coding state and the operand items to the result or the error. -/
def commandResult : Instr → Coding P → List (InItem P) → Except (Error P) (Done P)
  | .buildText _, _, xs => installResult (buildTextTree xs)
  | .buildFreq _, _, xs => installResult (buildFreqTree xs)
  | .loadCodes _, _, xs => loadCodesResult xs
  | .encode _, c, xs => encodeResult c xs
  | .decode _, c, xs => decodeResult c xs
  | .save _, c, _ => saveResult c
  | .load _, _, xs => loadResult xs

/-! ### The shape of a tree -/

/-- The node reached from `t` along a path, 0 left and 1 right (R87, R131). -/
def nodeAt : Node P → Code → Option (Node P)
  | t, [] => some t
  | .leaf _ _, _ :: _ => none
  | .internal _ l r, b :: p => nodeAt (if b then r else l) p

/-- The greatest depth of a leaf; the root's is 0 (R25). -/
def depth : Node P → Nat
  | .leaf _ _ => 0
  | .internal _ l r => max (depth l) (depth r) + 1

/-- How many nodes a tree has (R25). -/
def nodeCount : Node P → Nat
  | .leaf _ _ => 1
  | .internal _ l r => nodeCount l + nodeCount r + 1

/-- The leaves as (symbol, weight), left to right (R24). -/
def leafPairs : Node P → List ((Symbol P) × Nat)
  | .leaf s w => [(s, w)]
  | .internal _ l r => leafPairs l ++ leafPairs r

/-- Every Internal weighs the sum of its children (R25 item 4). -/
def weightsAdd : Node P → Bool
  | .leaf _ _ => true
  | .internal w l r => decide (w = nodeWeight l + nodeWeight r) && weightsAdd l && weightsAdd r

/-- The same shape and symbols with every weight 0 (R188). -/
def zeroWeights : Node P → Node P
  | .leaf s _ => .leaf s 0
  | .internal _ l r => .internal 0 (zeroWeights l) (zeroWeights r)

/-- An installed tree (R25): distinct leaf symbols, adding weights, and a root weight of `WEIGHT_W` bits,
which bounds every weight in the tree. -/
def treeOk (t : Node P) : Prop :=
  (leafSymbols t).Nodup ∧ weightsAdd t = true ∧ nodeWeight t ≤ P.weightMax

/-- The pair a BUILD_FREQ item stands for (R79). -/
def itemPair (x : InItem P) : (Symbol P) × Nat := (itemSymbol x, itemCount x)

/-- BUILD_FREQ pairs the operand scan accepts: no zero count, no repeated symbol (R116, R117). -/
def pairsOk (xs : List (InItem P)) : Prop :=
  (∀ x ∈ xs, itemCount x ≠ 0) ∧ (itemSymbols xs).Nodup

/-- The sum of all counts of the pairs (R118). -/
def countSum (xs : List (InItem P)) : Nat := (xs.map itemCount).sum

/-- A code record: a header and its bit items (R80). -/
abbrev CodeRecord (P : Params) := (InItem P) × List (InItem P)

/-- Well framed records with codes the hardware holds and no symbol twice (R80, R136). -/
def recordsOk (rs : List (CodeRecord P)) : Prop :=
  (∀ r ∈ rs, itemCount r.1 = r.2.length ∧ r.2.length ≤ P.codeMax) ∧
    (rs.map (fun r => itemSymbol r.1)).Nodup

/-- The operand items of the records, one after the other (R80). -/
def recordItems (rs : List (CodeRecord P)) : List (InItem P) := rs.flatMap (fun r => r.1 :: r.2)

/-- The code a list of records gives a symbol (R135). -/
def recordCode (rs : List (CodeRecord P)) (s : Symbol P) : Option Code :=
  (rs.find? (fun r => itemSymbol r.1 = s)).map (fun r => itemBits r.2)

/-- The bits the text of `xs` encodes to when every symbol is in the book (R152). -/
def textCode (b : Book P) (xs : List (InItem P)) : Code :=
  (itemSymbols xs).flatMap (fun s => (Memory.read b s).getD [])

/-- Every symbol of the text is in the book (R152). -/
def textKnown (b : Book P) (xs : List (InItem P)) : Prop :=
  ∀ s ∈ itemSymbols xs, (Memory.read b s).isSome

/-- A decode of `bits` from the root `t`: root-to-leaf paths one after the other, and what is left over
stops at a node that is no leaf, or is empty (R157, R160). -/
def DecodesTo (t : Node P) (bits : Code) (text : List (Symbol P)) (left : Code) : Prop :=
  ∃ paths : List Code,
    bits = paths.flatten ++ left ∧
    List.Forall₂ (fun p s => p ≠ [] ∧ ∃ w, nodeAt t p = some (.leaf s w)) paths text ∧
    ∃ w l r, nodeAt t left = some (.internal w l r)

/-- The merge of R107 as a relation, with no word on how PQ is kept: while two nodes or more are in PQ, the two
with the least keys become the left (the lesser, R109) and the right child of a node of their weight's sum that
carries the next sequence number; the one node left is the result. -/
inductive MergesTo {P : Params} : List (Entry P) → Nat → Node P → Prop where
  /-- One node is left. -/
  | root (q n : Nat) (t : Node P) : MergesTo [{ seq := q, node := t }] n t
  /-- One turn. -/
  | turn (pq rest : List (Entry P)) (a b : Entry P) (n : Nat) (t : Node P)
      (two : pq.Perm (a :: b :: rest)) (lesser : a.before b = true)
      (least : ∀ e ∈ rest, b.before e = true)
      (goOn : MergesTo
        (⟨n, .internal (nodeWeight a.node + nodeWeight b.node) a.node b.node⟩ :: rest) (n + 1) t) :
      MergesTo pq n t

/-! ### The invariant -/

/-- MODE fixes what TREE and BOOK hold (R23). -/
def Coding.Inv (c : Coding P) : Prop :=
  match c.mode with
  | .empty => c.tree = none ∧ c.book = []
  | .tree => ∃ t, c.tree = some t ∧ treeOk t ∧ c.book = derive (some t)
  | .imported => c.tree = none ∧ Memory.wf c.book = true ∧
      ∀ e ∈ c.book, e.2.length ≤ P.codeMax

/-- ERRINFO is 0 but after UnknownSymbolError, and PARTIAL is 0 after an error (R31, R32). -/
def Report.Inv (r : Report P) : Prop :=
  (r.err ≠ some .unknownSymbol → r.errinfo = 0#P.symW) ∧ (r.err ≠ none → r.part = false)

/-- What the sequencer holds: at most `LEN` items taken (R52); the response that tells what the command
left, and as many result items as it announces, none after an error (R54, R84); a delivery with something
left to deliver (R55). -/
def Engine.SeqInv (s : Engine P) : Prop :=
  match s.seq with
  | .idle => True
  | .run _ (.operands w taken) => taken.length ≤ cmdLen w
  | .run _ (.respond rsp out) =>
      rsp = responseWord s.coding.mode s.report out.length ∧ out.length ≤ P.lenMax ∧
        (s.report.err ≠ none → out = [])
  | .run _ (.deliver out) => out ≠ [] ∧ out.length ≤ P.lenMax ∧ s.report.err = none

/-- The invariant of the engine. -/
def Engine.Inv (s : Engine P) : Prop := s.coding.Inv ∧ s.report.Inv ∧ s.SeqInv

/-! ### What a step leaves to the host -/

/-- The host's side of the ports is the same in both states. -/
def sameHostSide (s t : Engine P) : Prop :=
  t.rst = s.rst ∧ t.cmdIn = s.cmdIn ∧ t.itemIn = s.itemIn ∧ t.rspReady = s.rspReady ∧
    t.outReady = s.outReady ∧ t.rspOut = s.rspOut ∧ t.itemOut = s.itemOut

/-- The result items staged behind the response (R54). -/
def Engine.staged (s : Engine P) : List (OutItem P) :=
  match s.seq with
  | .run _ (.respond _ out) => out
  | .run _ (.operands _ _) => []
  | .run _ (.deliver out) => out
  | .idle => []

/-- `s` running the command of word `w` with the operand `xs` taken. -/
def Engine.withOperand (w : CmdWord P) (xs : List (InItem P)) (s : Engine P) : Engine P :=
  { s with seq := .run s.shown (.operands w xs) }

end Sys2Proof.Machine
end

