-- ==== Sys2Proof/Certificates/Slice0/Obligations.lean ====
section
/-! DEFINITION. The statements for the provers, taken from the spec's numbered rules. A statement about a
command speaks of `exec` in every state with every operand; `s.operand len` is `IN[0 … LEN−1]` (20_memory
rule R52), `s.complete c r out` the one step in which the command's outcome takes effect (R54, R55) and
`s.raise e` the same for an error (R214). Every statement is for all parameters `P` of R6, those that need
the constraints of R6 for `P.Valid` ones, but for the worked examples, which are for the defaults. -/

open Sys2Proof Sys2Proof.Machine

/-! ### Encoding (30_encoding) -/

/-- The decoder reads back every well-formed command from its word: no bit of `OP`, `RSVD`, `LEN` is
dropped (R70, R72). -/
def Obligations.DecodeOfEncode : Prop :=
  ∀ (P : Params) (i : Instr), i.wellFormed P = true →
    Sys2Proof.decode (Sys2Proof.encode P i) = .ok i

/-- A word that decodes is the encoding of the command it decodes to, so every word has at most one
meaning (R70, R71, R72). -/
def Obligations.DecodedWordIsItsEncoding : Prop :=
  ∀ (P : Params) (w : CmdWord P) (i : Instr), Sys2Proof.decode w = .ok i →
    i.wellFormed P = true ∧ Sys2Proof.encode P i = w

/-- R74: a word with `RSVD ≠ 0`, or with `OP` 0 or 8 to 15, is illegal and is answered with
IllegalCommandError; every other word is the command its `OP` names, with its `LEN`, and that command
runs. -/
def Obligations.DecoderSplitsEveryWord : Prop :=
  ∀ (P : Params) (w : CmdWord P) (s : Engine P),
    ((cmdRsvd w ≠ 0#4 ∨ (cmdOp w).toNat = 0 ∨ 8 ≤ (cmdOp w).toNat) →
      (∃ e, Sys2Proof.decode w = .error e) ∧ runCommand w s = .next ⟨P, s.raise .illegalCommand⟩) ∧
    (¬ (cmdRsvd w ≠ 0#4 ∨ (cmdOp w).toNat = 0 ∨ 8 ≤ (cmdOp w).toNat) →
      ∃ i, Sys2Proof.decode w = .ok i ∧ opcode i = cmdOp w ∧ i.len = cmdLen w ∧
        runCommand w s = exec i ⟨P, s⟩)

/-- The worked encodings of R90, row by row, at the default parameters. -/
def Obligations.WorkedEncodings : Prop :=
  let D : CmdWord Params.default → Except DecodeError Instr := Sys2Proof.decode
  let R : Mode → Report Params.default → Nat → RspWord Params.default := responseWord
  let B : List (InItem Params.default) → Except (Error Params.default) (Book Params.default) := importBook
  D 0x0000000B01#40 = .ok (.buildText 11) ∧
  D 0x0000000602#40 = .ok (.buildFreq 6) ∧
  D 0x0000000603#40 = .ok (.loadCodes 6) ∧
  D 0x0000000404#40 = .ok (.encode 4) ∧
  D 0x0000000005#40 = .ok (.decode 0) ∧
  D 0x0000000006#40 = .ok (.save 0) ∧
  D 0x0000000507#40 = .ok (.load 5) ∧
  D 0x0000000000#40 = .error (.reservedOpcode 0#4) ∧
  D 0x0000000016#40 = .error (.reservedBits 1#4) ∧
  D 0x0000000309#40 = .error (.reservedOpcode 9#4) ∧
  cmdLen (P := Params.default) 0x0000000309#40 = 3 ∧
  itemSymbol (P := Params.default) 0x0000000061#40 = 0x61#8 ∧
  itemPair (P := Params.default) 0x0000000561#40 = (0x61#8, 5) ∧
  itemPair (P := Params.default) 0x0000002D66#40 = (0x66#8, 45) ∧
  B [0x0000000262#40, 0x0000000001#40, 0x0000000000#40] = .ok [(0x62#8, [true, false])] ∧
  B [0x0000000063#40] = .ok [(0x63#8, [])] ∧
  R .tree (Report.success false) 23 = 0x000000170002#48 ∧
  R .tree (Report.failure (.unknownSymbol 0x63#8)) 0 = 0x000000006322#48 ∧
  R .tree (Report.success true) 2 = 0x00000002000A#48 ∧
  R .imported (Report.failure .decodePrecondition) 0 = 0x000000000034#48 ∧
  R .empty (Report.failure .illegalCommand) 0 = 0x0000000000A0#48

/-! ### Status and response words (10_state R30, 30_encoding R84, 60_exceptions R211) -/

/-- R30: where each field of `STATUS` lies. -/
def Obligations.StatusWordFields : Prop :=
  ∀ (P : Params) (busy : Bool) (m : Mode) (r : Report P),
    (statusWord busy m r).getLsbD 0 = busy ∧
    (statusWord busy m r).extractLsb' 1 2 = m.code ∧
    (statusWord busy m r).getLsbD 3 = r.part ∧
    (statusWord busy m r).extractLsb' 4 4 = errField r.err

/-- R84: the response word of every command carries STATUS as the command leaves it with BUSY 0, ERRINFO
and the number of result items staged behind it, none after an error; its ERR is 0 exactly on success.
An operand has at most `LEN_MAX` items (R6, R70). -/
def Obligations.ResponseTellsTheOutcome : Prop :=
  ∀ (P : Params) (i : Instr) (s : Engine P), (s.operand i.len).length ≤ P.lenMax →
    ∃ t rsp, exec i ⟨P, s⟩ = .next ⟨P, t⟩ ∧ t.seq = .run s.shown (.respond rsp t.staged) ∧
      rspStatus rsp = statusWord false t.coding.mode t.report ∧
      rspErrinfo rsp = t.report.errinfo ∧
      rspOutLen rsp = t.staged.length ∧
      rspErr rsp = errField t.report.err ∧
      (rspErr rsp = 0#4 ↔ t.report.err = none) ∧
      (t.report.err ≠ none → t.staged = [])

/-- The code numbers of R211: the table's, no two alike, none 0. -/
def Obligations.ErrorCodeNumbers : Prop :=
  ErrorKind.emptyInput.code = 1#4 ∧ ErrorKind.unknownSymbol.code = 2#4 ∧
  ErrorKind.decodePrecondition.code = 3#4 ∧ ErrorKind.malformedBitstream.code = 4#4 ∧
  ErrorKind.malformedTreeData.code = 5#4 ∧ ErrorKind.invalidOperand.code = 8#4 ∧
  ErrorKind.capacity.code = 9#4 ∧ ErrorKind.illegalCommand.code = 10#4 ∧
  (∀ k k' : ErrorKind, k.code = k'.code → k = k') ∧ (∀ k : ErrorKind, k.code ≠ 0#4)

/-! ### Reset and the step (10_state R37; 20_memory R52, R55, R57; 70 R240, R241, R251) -/

/-- R37: the values the spec gives for reset, for any parameters. That `State.reset` is such an engine at the
default parameters of R6 is the model's choice (DESIGN CHOICE, assumption log 1), not R37's words. -/
def Obligations.ResetValues : Prop :=
  State.reset.params = Params.default ∧ State.reset.engine = Engine.reset ∧
  ∀ (P : Params) (s : Engine P), s = Engine.reset →
    s.seq = .idle ∧ s.busy = false ∧ s.coding.mode = .empty ∧ s.coding.tree = none ∧
    (∀ a, Memory.read s.coding.book a = none) ∧ s.report.err = none ∧ s.report.errinfo = 0#P.symW ∧
    s.report.part = false ∧ s.statusPins = 0#8

/-- R240, R241: an edge with `rst` 1 takes the engine to the reset state from any state, a running command
gone with its response and its results; nothing is ready or valid, so no word moves, and what the host
still holds stays the host's. -/
def Obligations.RstTakesTheResetState : Prop :=
  ∀ (P : Params) (s : Engine P), s.rst = true →
    s.cmdReady = false ∧ s.inReady = false ∧ s.rspValid = false ∧ s.outValid = false ∧
    ∃ t, step ⟨P, s⟩ = .next ⟨P, t⟩ ∧ t.coding = (Engine.reset (P := P)).coding ∧
      t.report = (Engine.reset (P := P)).report ∧ t.seq = (Engine.reset (P := P)).seq ∧ sameHostSide s t

/-- A step runs the decoded command: once the accepted command's `LEN` items are taken, the step is `exec`
of the command the word decodes to (R52, R74). -/
def Obligations.StepRunsTheDecodedCommand : Prop :=
  ∀ (P : Params) (s : Engine P) (h : Shown P) (w : CmdWord P) (xs : List (InItem P)) (i : Instr),
    s.rst = false → s.seq = .run h (.operands w xs) → cmdLen w ≤ xs.length →
    Sys2Proof.decode w = .ok i → step ⟨P, s⟩ = exec i ⟨P, s⟩

/-- R52, R57, R73: before that, the step takes the next operand item, or waits for one, whatever the word;
and an idle engine accepts the command word presented, or waits for one. -/
def Obligations.StepTakesItemsBeforeItRuns : Prop :=
  ∀ P : Params,
  (∀ (s : Engine P) (h : Shown P) (w : CmdWord P) (xs : List (InItem P)),
    s.rst = false → s.seq = .run h (.operands w xs) → xs.length < cmdLen w →
    (s.itemIn = [] → step ⟨P, s⟩ = .next ⟨P, s⟩) ∧
    (∀ x rest, s.itemIn = x :: rest →
      step ⟨P, s⟩ = .next ⟨P, { s with itemIn := rest, seq := .run h (.operands w (xs ++ [x])) }⟩)) ∧
  (∀ s : Engine P, s.rst = false → s.seq = .idle →
    (s.cmdIn = [] → step ⟨P, s⟩ = .next ⟨P, s⟩) ∧
    (∀ w ws, s.cmdIn = w :: ws →
      step ⟨P, s⟩ = .next ⟨P, { s with cmdIn := ws, seq := .run s.current (.operands w []) }⟩))

/-- R73, R218: a word with `RSVD ≠ 0`, or with `OP` 0 or 8 to 15, presented to an idle engine with its `LEN`
items, is answered with IllegalCommandError and no result item; the items are taken and discarded, and of
MODE, TREE, BOOK nothing changes. That it takes `LEN + 3` steps is the model's own count of steps (assumption
log 2: one word moved, or the command answered, a step). -/
def Obligations.ReservedWordIsIllegalCommand : Prop :=
  ∀ (P : Params) (s : Engine P) (w : CmdWord P) (ws : List (CmdWord P)) (items rest : List (InItem P)),
    (cmdRsvd w ≠ 0#4 ∨ (cmdOp w).toNat = 0 ∨ 8 ≤ (cmdOp w).toNat) →
    s.rst = false → s.seq = .idle → s.rspReady = true →
    s.cmdIn = w :: ws → s.itemIn = items ++ rest → items.length = cmdLen w →
    ∃ rsp : RspWord P, rspErr rsp = 10#4 ∧ rspErrinfo rsp = 0#P.symW ∧ rspOutLen rsp = 0 ∧
      Host.Core.run Sys2Proof.core (cmdLen w + 3) (State.mk P s) =
        .next ⟨P, { s with
          cmdIn := ws
          itemIn := rest
          rspOut := s.rspOut ++ [rsp]
          report := { err := some .illegalCommand, errinfo := 0#P.symW, part := false } }⟩

/-- No step stops: from every state the engine has a next state (R11, R222), and no step changes the
parameters (R38). -/
def Obligations.EveryStepHasANextState : Prop :=
  ∀ (P : Params) (s : Engine P), ∃ t, step ⟨P, s⟩ = .next ⟨P, t⟩

/-- R57: on each channel the word at the port moves in a step exactly when `valid` and `ready` are both 1,
in order, none duplicated or lost; `cmd_ready` is 1 exactly when SEQ is IDLE and `rst` is 0; `in_ready` only
while a running command still has items to take; and the engine holds a response word or a result item
until it moves. -/
def Obligations.WordsMoveOnHandshakeInOrder : Prop :=
  ∀ (P : Params) (s t : Engine P), step ⟨P, s⟩ = .next ⟨P, t⟩ →
    t.cmdIn = (if s.cmdReady = true then s.cmdIn.tail else s.cmdIn) ∧
    t.itemIn = (if s.inReady = true then s.itemIn.tail else s.itemIn) ∧
    t.rspOut = s.rspOut ++ (if s.rspReady = true then s.rspData.toList else []) ∧
    t.itemOut = s.itemOut ++ (if s.outReady = true then s.outData.toList else []) ∧
    t.rst = s.rst ∧ t.rspReady = s.rspReady ∧ t.outReady = s.outReady ∧
    (s.cmdReady = true ↔ s.seq = .idle ∧ s.rst = false) ∧
    (s.inReady = true → ∃ h w xs, s.seq = .run h (.operands w xs) ∧ xs.length < cmdLen w) ∧
    (∀ w, s.rspData = some w → s.rspReady = false → t.rspData = some w) ∧
    (∀ x, s.outData = some x → s.outReady = false → t.outData = some x)

/-- R55, R60: without reset, MODE, TREE, BOOK and the status fields change only in the step in which the
response word becomes valid. -/
def Obligations.StateChangesWhenResponseBecomesValid : Prop :=
  ∀ (P : Params) (s t : Engine P), step ⟨P, s⟩ = .next ⟨P, t⟩ → s.rst = false →
    (t.coding ≠ s.coding ∨ t.report ≠ s.report) → s.rspValid = false ∧ t.rspValid = true

/-- What the pins show (R30, R31, R250; the model's reading of R250 beside R55, assumption log 5): while a
command runs, MODE, PARTIAL, ERR and ERRINFO as they stood when it was accepted; in an idle state, as
they stand. BUSY is 1 exactly while SEQ is RUN. -/
def Obligations.PinsShowTheStateBeforeWhileBusy : Prop :=
  ∀ P : Params,
  (∀ s : Engine P, s.seq = .idle →
    s.statusPins = statusWord false s.coding.mode s.report ∧ s.errinfoPins = s.report.errinfo) ∧
  (∀ s t : Engine P, step ⟨P, s⟩ = .next ⟨P, t⟩ → s.rst = false → t.seq ≠ .idle →
    t.statusPins = s.statusPins ||| 1#8 ∧ t.errinfoPins = s.errinfoPins)

/-- R251: the engine waits (a step that changes nothing) only for an operand item that the host does not
present, for `rsp_ready`, for `out_ready`, or idle for a command word; presenting the one lifts the wait,
and so does reset, in which nothing waits but the idle engine. -/
def Obligations.EngineWaitsOnlyForTheHost : Prop :=
  ∀ (P : Params) (s : Engine P), step ⟨P, s⟩ = .next ⟨P, s⟩ →
    (s.seq = .idle ∧ (s.rst = true ∨ s.cmdIn = [])) ∨
    (s.inReady = true ∧ s.itemIn = []) ∨
    (s.rspValid = true ∧ s.rspReady = false) ∨
    (s.outValid = true ∧ s.outReady = false)

/-- R222, R52, R54, R55, R253: from an idle engine, a host that presents a command word with its `LEN`
items and takes what comes back gets exactly one response, then exactly `OUTLEN` result items, after
`LEN + 3 + OUTLEN` steps (the model's own count of steps, assumption log 2); the engine is idle again in the
state the command left, and items beyond `LEN` stay queued. -/
def Obligations.CommandEndsWithOneResponse : Prop :=
  ∀ (P : Params) (s : Engine P) (w : CmdWord P) (ws : List (CmdWord P)) (items rest : List (InItem P)),
    s.rst = false → s.seq = .idle → s.rspReady = true → s.outReady = true →
    s.cmdIn = w :: ws → s.itemIn = items ++ rest → items.length = cmdLen w →
    ∃ (t : Engine P) (rsp : RspWord P) (out : List (OutItem P)),
      runCommand w (Engine.withOperand w items { s with cmdIn := ws, itemIn := rest }) = .next ⟨P, t⟩ ∧
      t.seq = .run s.current (.respond rsp out) ∧ rspOutLen rsp = out.length ∧
      Host.Core.run Sys2Proof.core (cmdLen w + 3 + out.length) (State.mk P s) =
        .next ⟨P, { t with seq := .idle, rspOut := s.rspOut ++ [rsp], itemOut := s.itemOut ++ out }⟩

/-! ### Invariants and frames -/

/-- Every step keeps the invariant of an engine whose parameters meet R6: MODE fixes TREE and BOOK (R23), the
tree has distinct leaves and adding weights that fit (R25), an imported book fits the hardware (R28), the
status fields and the sequencer are consistent (R31, R32, R52, R54, R84). -/
def Obligations.StepKeepsTheInvariant : Prop :=
  ∀ (P : Params) (s t : Engine P), P.Valid → s.Inv → step ⟨P, s⟩ = .next ⟨P, t⟩ → t.Inv

/-- The default parameters meet the constraints of R6, and the invariant holds after reset (R37, R23). -/
def Obligations.ResetMeetsTheInvariant : Prop :=
  Params.default.Valid ∧ (∀ P : Params, (Engine.reset (P := P)).Inv) ∧ State.reset.engine.Inv

/-- R28, R113: in every state that meets the invariant BOOK fits its memory: at most `NSYM` entries, one a
symbol, no code over `CODE_MAX` bits. -/
def Obligations.BookFitsItsMemory : Prop :=
  ∀ (P : Params) (s : Engine P), P.Valid → s.Inv →
    Memory.wf s.coding.book = true ∧ s.coding.book.length ≤ P.nsym ∧
    ∀ a c, Memory.read s.coding.book a = some c → c.length ≤ P.codeMax

/-- The frame of all seven commands: the host's side of the ports is untouched (operand items were taken
before, result items move after), and SEQ goes to the response. That the MODE, ERR, ERRINFO and PARTIAL on the
pins (`shown`) stay as before the command is the model's reading of R250 (DEDUCED, assumption log 5). -/
def Obligations.CommandLeavesTheHostSide : Prop :=
  ∀ (P : Params) (i : Instr) (s t : Engine P), exec i ⟨P, s⟩ = .next ⟨P, t⟩ →
    sameHostSide s t ∧ t.shown = s.shown ∧ t.rspValid = !s.rst

/-- ENCODE, DECODE and SAVE leave MODE, TREE and BOOK as they were, whatever their outcome (R22, R27). -/
def Obligations.CodecAndSaveKeepTheCodingState : Prop :=
  ∀ (P : Params) (len : Nat) (s t : Engine P),
    (exec (.encode len) ⟨P, s⟩ = .next ⟨P, t⟩ ∨ exec (.decode len) ⟨P, s⟩ = .next ⟨P, t⟩ ∨
      exec (.save len) ⟨P, s⟩ = .next ⟨P, t⟩) →
    t.coding = s.coding

/-- R215: a command that ends with an error leaves MODE, TREE and BOOK exactly as they were; so does a
reserved word. -/
def Obligations.FailedCommandKeepsTheCodingState : Prop :=
  ∀ (P : Params) (w : CmdWord P) (s t : Engine P), runCommand w s = .next ⟨P, t⟩ → t.report.err ≠ none →
    t.coding = s.coding

/-- R32, R31: every command writes ERR, ERRINFO and PARTIAL when it completes: ERRINFO is 0 but after
UnknownSymbolError, when it is a symbol of the text that is absent from the book; PARTIAL is 1 only after a
successful DECODE; and no command reads them: from a state that differs only in them it leaves the same
state and the same result. -/
def Obligations.StatusFieldsAreWrittenAndNeverRead : Prop :=
  ∀ (P : Params) (i : Instr) (s t : Engine P) (r : Report P), exec i ⟨P, s⟩ = .next ⟨P, t⟩ →
    (t.report.err ≠ some .unknownSymbol → t.report.errinfo = 0#P.symW) ∧
    (t.report.err = some .unknownSymbol → t.report.errinfo ∈ itemSymbols (s.operand i.len) ∧
      Memory.read s.coding.book t.report.errinfo = none ∧ ∃ len, i = .encode len) ∧
    (t.report.part = true → t.report.err = none ∧ ∃ len, i = .decode len) ∧
    ∃ t', exec i ⟨P, { s with report := r }⟩ = .next ⟨P, t'⟩ ∧ t'.coding = t.coding ∧ t'.report = t.report ∧
      t'.staged = t.staged

/-- R39: no command's result depends on the weights of the installed tree. -/
def Obligations.InstalledWeightsAreNeverRead : Prop :=
  ∀ (P : Params) (i : Instr) (s t : Engine P), exec i ⟨P, s⟩ = .next ⟨P, t⟩ →
    ∃ t', exec i ⟨P, { s with coding := { s.coding with tree := s.coding.tree.map zeroWeights } }⟩ =
        .next ⟨P, t'⟩ ∧
      t'.report = t.report ∧ t'.staged = t.staged ∧ t'.coding.mode = t.coding.mode ∧
      t'.coding.book = t.coding.book

/-- R75 to R78, R80, R81: bits of an item above its format change nothing: only the low `SYM_W` bits of a
symbol or character item count, only bit 0 of a bit item, also in a code record, and nothing of an item
SAVE drains. -/
def Obligations.BitsAboveTheFormatAreIgnored : Prop :=
  ∀ (P : Params) (s : Engine P) (w : CmdWord P) (len : Nat),
    (∀ xs ys, itemSymbols xs = itemSymbols ys →
      exec (.buildText len) ⟨P, s.withOperand w xs⟩ = exec (.buildText len) ⟨P, s.withOperand w ys⟩ ∧
      exec (.encode len) ⟨P, s.withOperand w xs⟩ = exec (.encode len) ⟨P, s.withOperand w ys⟩ ∧
      exec (.load len) ⟨P, s.withOperand w xs⟩ = exec (.load len) ⟨P, s.withOperand w ys⟩) ∧
    (∀ xs ys, itemBits xs = itemBits ys →
      exec (.decode len) ⟨P, s.withOperand w xs⟩ = exec (.decode len) ⟨P, s.withOperand w ys⟩) ∧
    (∀ xs ys, exec (.save len) ⟨P, s.withOperand w xs⟩ = exec (.save len) ⟨P, s.withOperand w ys⟩) ∧
    (∀ rs rs' : List (CodeRecord P), recordsOk rs →
      rs.map (fun r => (r.1, itemBits r.2)) = rs'.map (fun r => (r.1, itemBits r.2)) →
      exec (.loadCodes (recordItems rs).length) ⟨P, s.withOperand w (recordItems rs)⟩ =
        exec (.loadCodes (recordItems rs').length) ⟨P, s.withOperand w (recordItems rs')⟩)

/-- BUILD_TEXT, BUILD_FREQ, LOAD_CODES and LOAD read no persistent state (R102, R103, R135, R185): what a
success installs and delivers is a function of the operand alone. -/
def Obligations.InstallingCommandsReadOnlyTheirOperand : Prop :=
  ∀ (P : Params) (i : Instr) (s s' t : Engine P),
    (∃ len, i = .buildText len ∨ i = .buildFreq len ∨ i = .loadCodes len ∨ i = .load len) →
    s'.taken = s.taken → exec i ⟨P, s⟩ = .next ⟨P, t⟩ →
    ∃ t', exec i ⟨P, s'⟩ = .next ⟨P, t'⟩ ∧ t'.report = t.report ∧ t'.staged = t.staged ∧
      (t.report.err = none → t'.coding = t.coding)

/-- The mode automaton of R27 and R245: on success BUILD_TEXT, BUILD_FREQ and LOAD of data lead to TREE,
LOAD of empty data to EMPTY, LOAD_CODES to IMPORT, each from every mode, and ENCODE, DECODE, SAVE keep the
mode; on an error every command keeps it. -/
def Obligations.ModeTransitions : Prop :=
  ∀ (P : Params) (i : Instr) (s t : Engine P), exec i ⟨P, s⟩ = .next ⟨P, t⟩ →
    (t.report.err ≠ none → t.coding.mode = s.coding.mode) ∧
    (t.report.err = none →
      match i with
      | .buildText _ => t.coding.mode = .tree
      | .buildFreq _ => t.coding.mode = .tree
      | .loadCodes _ => t.coding.mode = .imported
      | .encode _ => t.coding.mode = s.coding.mode
      | .decode _ => t.coding.mode = s.coding.mode
      | .save _ => t.coding.mode = s.coding.mode
      | .load len => t.coding.mode = (if s.operand len = [] then .empty else .tree))

/-- The table of R213: which command can end with which error. SAVE can end with CapacityError only where
`LEN_MAX < 3·NSYM − 1`, so not with the default parameters (R181). -/
def Obligations.ErrorsOfEachCommand : Prop :=
  ∀ (P : Params) (i : Instr) (s t : Engine P) (k : ErrorKind), P.Valid → s.Inv →
    exec i ⟨P, s⟩ = .next ⟨P, t⟩ → t.report.err = some k →
    match i with
    | .buildText _ => k = .emptyInput
    | .buildFreq _ => k = .emptyInput ∨ k = .invalidOperand ∨ k = .capacity
    | .loadCodes _ => k = .invalidOperand ∨ k = .capacity
    | .encode _ => k = .unknownSymbol ∨ k = .capacity
    | .decode _ => k = .decodePrecondition ∨ k = .malformedBitstream
    | .save _ => k = .capacity ∧ P.lenMax < 3 * P.nsym - 1
    | .load _ => k = .malformedTreeData

/-! ### Tree construction (40_tree_build) -/

/-- BUILD_TEXT of a text counts it into FT, the one canonical table with the number of occurrences of every
symbol, and installs, in MODE TREE with its derived book, the tree that BUILD gives of that table; it has
one leaf a distinct symbol, weighing its occurrences, and weighs the length of the text; CapacityError
cannot occur (R102, R104, R105, R110). -/
def Obligations.BuildTextInstallsTheCountedTree : Prop :=
  ∀ (P : Params) (len : Nat) (s : Engine P), P.Valid → s.operand len ≠ [] →
    (s.operand len).length ≤ P.lenMax →
    ∃ (ft : FreqTable P) (t : Node P),
      Memory.wf ft = true ∧ (∀ e ∈ ft, e.2 ≠ 0) ∧
      (∀ a, countOf ft a = (itemSymbols (s.operand len)).count a) ∧
      build ft = .ok t ∧
      exec (.buildText len) ⟨P, s⟩ = .next ⟨P, s.complete (installTree t) (Report.success false) []⟩ ∧
      treeOk t ∧ nodeWeight t = (s.operand len).length ∧
      ∀ a n, (a, n) ∈ leafPairs t ↔ n = (itemSymbols (s.operand len)).count a ∧ n ≠ 0

/-- BUILD_FREQ of acceptable pairs whose counts add up to at most `2^WEIGHT_W − 1` fills FT, the one canonical
table with exactly these pairs, and installs, in MODE TREE with its derived book, the tree that BUILD gives of
that table; it has exactly one leaf a pair, weighing the pair's count, and weighs the sum (R103, R104, R105,
R107). -/
def Obligations.BuildFreqInstallsTheTreeOfThePairs : Prop :=
  ∀ (P : Params) (len : Nat) (s : Engine P), s.operand len ≠ [] → pairsOk (s.operand len) →
    countSum (s.operand len) ≤ P.weightMax →
    ∃ (ft : FreqTable P) (t : Node P),
      Memory.wf ft = true ∧ ft.Perm ((s.operand len).map itemPair) ∧
      build ft = .ok t ∧
      exec (.buildFreq len) ⟨P, s⟩ = .next ⟨P, s.complete (installTree t) (Report.success false) []⟩ ∧
      treeOk t ∧ nodeWeight t = countSum (s.operand len) ∧
      (leafPairs t).Perm ((s.operand len).map itemPair)

/-- R115: a zero-length operand is EmptyInputError for both build commands, and no other operand is. -/
def Obligations.EmptyBuildIsEmptyInput : Prop :=
  ∀ (P : Params) (len : Nat) (s : Engine P),
    (s.operand len = [] →
      exec (.buildText len) ⟨P, s⟩ = .next ⟨P, s.raise .emptyInput⟩ ∧
      exec (.buildFreq len) ⟨P, s⟩ = .next ⟨P, s.raise .emptyInput⟩) ∧
    (s.operand len ≠ [] →
      exec (.buildText len) ⟨P, s⟩ ≠ .next ⟨P, s.raise .emptyInput⟩ ∧
      exec (.buildFreq len) ⟨P, s⟩ ≠ .next ⟨P, s.raise .emptyInput⟩)

/-- R116, R117: BUILD_FREQ refuses a pair with count 0 and a pair whose symbol an earlier pair gave,
wherever it stands and whatever the counts, with InvalidOperandError. -/
def Obligations.BuildFreqRefusesZeroCountsAndRepeats : Prop :=
  ∀ (P : Params) (len : Nat) (s : Engine P) (before : List (InItem P)) (x : InItem P)
    (after : List (InItem P)),
    s.operand len = before ++ x :: after →
    (itemCount x = 0 ∨ itemSymbol x ∈ itemSymbols before) →
    exec (.buildFreq len) ⟨P, s⟩ = .next ⟨P, s.raise .invalidOperand⟩

/-- R118: for pairs the operand scan accepts, BUILD_FREQ raises CapacityError exactly when the sum of all
counts exceeds `2^WEIGHT_W − 1`. -/
def Obligations.BuildFreqCapacityExactly : Prop :=
  ∀ (P : Params) (len : Nat) (s : Engine P), s.operand len ≠ [] → pairsOk (s.operand len) →
    (exec (.buildFreq len) ⟨P, s⟩ = .next ⟨P, s.raise .capacity⟩ ↔
      P.weightMax < countSum (s.operand len))

/-- R111: the order of the pairs does not matter to BUILD_FREQ, and BUILD_TEXT of a text does what
BUILD_FREQ does of the pairs (symbol, number of occurrences), in any order. -/
def Obligations.BuildDependsOnTheTableOnly : Prop :=
  ∀ P : Params,
  (∀ (s : Engine P) (w : CmdWord P) (xs ys : List (InItem P)), xs.Perm ys →
    exec (.buildFreq xs.length) ⟨P, s.withOperand w xs⟩ =
      exec (.buildFreq ys.length) ⟨P, s.withOperand w ys⟩) ∧
  (∀ (s : Engine P) (w : CmdWord P) (xs ys : List (InItem P)), xs ≠ [] →
    (itemSymbols ys).Nodup → (∀ a, a ∈ itemSymbols ys ↔ a ∈ itemSymbols xs) →
    (∀ y ∈ ys, itemCount y = (itemSymbols xs).count (itemSymbol y)) →
    exec (.buildText xs.length) ⟨P, s.withOperand w xs⟩ =
      exec (.buildFreq ys.length) ⟨P, s.withOperand w ys⟩)

/-- R109, with R106 and R107: one turn of the merge takes the two nodes with the least keys out of PQ, the
lesser as the left child and the other as the right child of a new node that weighs their exact sum and
carries the next sequence number; a sum that does not fit is CapacityError. -/
def Obligations.MergeTakesTheTwoLeastLeftFirst : Prop :=
  ∀ (P : Params) (pq : List (Entry P)) (nseq : Nat), (pq.map Entry.seq).Nodup → 2 ≤ pq.length →
    ∃ a b rest, pq.Perm (a :: b :: rest) ∧ a.before b = true ∧
      (∀ e ∈ rest, a.before e = true ∧ b.before e = true) ∧
      (nodeWeight a.node + nodeWeight b.node ≤ P.weightMax →
        ∃ rest', mergeStep pq nseq = .ok
          ({ seq := nseq,
             node := .internal (nodeWeight a.node + nodeWeight b.node) a.node b.node } :: rest') ∧
          rest'.Perm rest) ∧
      (P.weightMax < nodeWeight a.node + nodeWeight b.node →
        mergeStep pq nseq = .error .capacity)

/-- R105: the merge starts with the leaves in ascending symbol order: the `i`-th entry of the table is the
leaf with sequence number `i`, the sequence numbers of two leaves stand as their symbols do, and of two
leaves of equal weight the one of the lesser symbol is popped first. R106, R107: after `k` of the `n − 1`
turns PQ holds `n − k` nodes whose sequence numbers are distinct and below `n + k`, and their weights still
add up to the sum of all counts. -/
def Obligations.MergeStartsInSymbolOrderAndKeepsKeysUnique : Prop :=
  (∀ (P : Params) (ft : FreqTable P), Memory.wf ft = true →
    (leafEntries 0 ft).length = ft.length ∧
    (∀ i a w, ft[i]? = some (a, w) → (leafEntries 0 ft)[i]? = some (Entry.mk i (.leaf a w))) ∧
    (∀ e ∈ leafEntries 0 ft, ∀ f ∈ leafEntries 0 ft, ∀ a v b w,
      e.node = .leaf a v → f.node = .leaf b w →
      countOf ft a = v ∧ (e.seq < f.seq ↔ a < b) ∧ (v = w → a < b → e.before f = true))) ∧
  (∀ (P : Params) (ft : FreqTable P) (k : Nat) (pq : List (Entry P)), k < ft.length →
    mergeTimes k (leafEntries 0 ft) ft.length = .ok pq →
    pq.length = ft.length - k ∧ (pq.map Entry.seq).Nodup ∧ (∀ e ∈ pq, e.seq < ft.length + k) ∧
      (pq.map (fun e => nodeWeight e.node)).sum = (ft.map (fun e => e.2)).sum)

/-- R107: BUILD's result is what the merge of the leaves leads to: again and again the two nodes with the
least keys, the lesser left, become one that carries the next sequence number, until one is left; it has
`2n − 1` nodes, one leaf an entry of FT, adding weights, and a root that weighs the sum of all counts. -/
def Obligations.BuildMergesTheLeaves : Prop :=
  ∀ (P : Params) (ft : FreqTable P) (t : Node P), build ft = .ok t →
    MergesTo (leafEntries 0 ft) ft.length t ∧
    nodeCount t = 2 * ft.length - 1 ∧ (leafPairs t).Perm ft ∧ weightsAdd t = true ∧
      nodeWeight t = (ft.map (fun e => e.2)).sum

/-- R108: a table of one symbol gives the tree that is one leaf, and no merge: for BUILD, for BUILD_TEXT of a
text of one distinct symbol, however long, and for BUILD_FREQ of one pair. -/
def Obligations.OneSymbolGivesOneLeaf : Prop :=
  ∀ P : Params,
  (∀ (a : Symbol P) (n : Nat), build [(a, n)] = .ok (.leaf a n)) ∧
  (∀ (len : Nat) (s : Engine P) (a : Symbol P), s.operand len ≠ [] →
    (∀ x ∈ s.operand len, itemSymbol x = a) →
    exec (.buildText len) ⟨P, s⟩ =
      .next ⟨P, s.complete (installTree (.leaf a (s.operand len).length)) (Report.success false) []⟩) ∧
  (∀ (len : Nat) (s : Engine P) (x : InItem P), s.operand len = [x] → itemCount x ≠ 0 →
    exec (.buildFreq len) ⟨P, s⟩ =
      .next ⟨P, s.complete (installTree (.leaf (itemSymbol x) (itemCount x))) (Report.success false) []⟩)

/-- R25 item 3, R113: a tree with distinct leaf symbols has at most `NSYM` leaves and `2·NSYM − 1` nodes,
depth at most one less than its number of leaves, and no code over `CODE_MAX` bits. -/
def Obligations.TreeSizeBounds : Prop :=
  ∀ (P : Params) (t : Node P), P.Valid → (leafSymbols t).Nodup →
    1 ≤ (leafSymbols t).length ∧ (leafSymbols t).length ≤ P.nsym ∧
    nodeCount t = 2 * (leafSymbols t).length - 1 ∧ nodeCount t ≤ P.nodeMax ∧
    depth t + 1 ≤ (leafSymbols t).length ∧
    ∀ a c, Memory.read (derive (some t)) a = some c → c.length ≤ P.codeMax

/-- The textbook example of R114: the tree, the codes and the serialized string. -/
def Obligations.TextbookTree : Prop :=
  ∀ s : Engine Params.default, ∃ t,
    exec (.buildFreq 6) ⟨Params.default, s.withOperand 0x0000000602#40
      [0x0000000561#40, 0x0000000962#40, 0x0000000C63#40, 0x0000000D64#40, 0x0000001065#40,
       0x0000002D66#40]⟩ = .next ⟨Params.default, t⟩ ∧
    t.coding.tree = some (.internal 100 (.leaf 0x66#8 45)
      (.internal 55 (.internal 25 (.leaf 0x63#8 12) (.leaf 0x64#8 13))
        (.internal 30 (.internal 14 (.leaf 0x61#8 5) (.leaf 0x62#8 9)) (.leaf 0x65#8 16)))) ∧
    t.coding.book =
      [(0x61#8, [true, true, false, false]), (0x62#8, [true, true, false, true]),
       (0x63#8, [true, false, false]), (0x64#8, [true, false, true]), (0x65#8, [true, true, true]),
       (0x66#8, [false])] ∧
    savedString t.coding =
      [0x30#8, 0x31#8, 0x66#8, 0x30#8, 0x30#8, 0x31#8, 0x63#8, 0x31#8, 0x64#8, 0x30#8, 0x30#8, 0x31#8,
       0x61#8, 0x31#8, 0x62#8, 0x31#8, 0x65#8]

/-! ### The code book (41_codebook) -/

/-- R130, R132: DERIVE records for each leaf, and for nothing else, the path from the root to it, and reads
no weight; of the null tree it records nothing, of a single leaf the empty path. -/
def Obligations.DeriveRecordsTheLeafPaths : Prop :=
  ∀ P : Params,
  (∀ (t : Node P) (a : Symbol P) (p : Code), (leafSymbols t).Nodup →
    (Memory.read (derive (some t)) a = some p ↔ ∃ w, nodeAt t p = some (.leaf a w))) ∧
  (∀ t : Node P, derive (some (zeroWeights t)) = derive (some t)) ∧
  (∀ a : Symbol P, Memory.read (derive none) a = none) ∧
  (∀ (a b : Symbol P) (w : Nat),
    Memory.read (derive (some (.leaf a w))) b = if a = b then some [] else none)

/-- R133: a derived book is prefix-free and invertible; with two leaves or more every code has a bit, with
one leaf the only code is the empty one. -/
def Obligations.DerivedBookIsPrefixFree : Prop :=
  ∀ (P : Params) (t : Node P), (leafSymbols t).Nodup →
    (∀ (a b : Symbol P) (p q : Code), Memory.read (derive (some t)) a = some p →
      Memory.read (derive (some t)) b = some q → (a ≠ b → ¬ p <+: q) ∧ (p = q → a = b)) ∧
    (∀ (a : Symbol P) (p : Code), Memory.read (derive (some t)) a = some p →
      (2 ≤ (leafSymbols t).length → 1 ≤ p.length) ∧ ((leafSymbols t).length = 1 → p = []))

/-- LOAD_CODES of well framed records with distinct symbols and codes of at most `CODE_MAX` bits installs
exactly those codes, no tree, MODE IMPORT (R80, R135); no record at all installs the empty book. -/
def Obligations.LoadCodesInstallsTheRecords : Prop :=
  ∀ (P : Params) (len : Nat) (s : Engine P) (rs : List (CodeRecord P)), recordsOk rs →
    s.operand len = recordItems rs →
    ∃ b, exec (.loadCodes len) ⟨P, s⟩ = .next
        ⟨P, s.complete { mode := .imported, tree := none, book := b } (Report.success false) []⟩ ∧
      ∀ a, Memory.read b a = recordCode rs a

/-- R136: behind acceptable records, the first record that fails a test decides the error: too long a code,
then a record cut short, then a symbol given before. -/
def Obligations.LoadCodesErrorsInOrder : Prop :=
  ∀ (P : Params) (len : Nat) (s : Engine P) (rs : List (CodeRecord P)) (h : InItem P)
    (rest : List (InItem P)), recordsOk rs → s.operand len = recordItems rs ++ h :: rest →
    (P.codeMax < itemCount h → exec (.loadCodes len) ⟨P, s⟩ = .next ⟨P, s.raise .capacity⟩) ∧
    (itemCount h ≤ P.codeMax → rest.length < itemCount h →
      exec (.loadCodes len) ⟨P, s⟩ = .next ⟨P, s.raise .invalidOperand⟩) ∧
    (itemCount h ≤ P.codeMax → itemCount h ≤ rest.length →
      itemSymbol h ∈ rs.map (fun r => itemSymbol r.1) →
      exec (.loadCodes len) ⟨P, s⟩ = .next ⟨P, s.raise .invalidOperand⟩)

/-- R182: after a LOAD_CODES that succeeds there is no tree: SAVE gives the empty string with success and
DECODE fails its precondition. -/
def Obligations.ImportLosesTheTree : Prop :=
  ∀ P : Params,
  (∀ (len : Nat) (s : Engine P), s.coding.mode = .imported →
    exec (.save len) ⟨P, s⟩ = .next ⟨P, s.complete s.coding (Report.success false) []⟩) ∧
  (∀ (len n : Nat) (s t : Engine P), exec (.loadCodes len) ⟨P, s⟩ = .next ⟨P, t⟩ → t.report.err = none →
    t.coding.tree = none ∧ t.coding.mode = .imported ∧
    exec (.save n) ⟨P, t⟩ = .next ⟨P, t.complete t.coding (Report.success false) []⟩ ∧
    exec (.decode n) ⟨P, t⟩ = .next ⟨P, t.raise .decodePrecondition⟩)

/-! ### The codec (42_codec) -/

/-- R152: ENCODE concatenates the codes of the symbols in text order; the first symbol, in text order, that
is absent from the book, or whose code makes the result longer than `LEN_MAX`, decides the error. -/
def Obligations.EncodeConcatenatesTheCodes : Prop :=
  ∀ (P : Params) (len : Nat) (s : Engine P),
    (textKnown s.coding.book (s.operand len) →
      (textCode s.coding.book (s.operand len)).length ≤ P.lenMax →
      exec (.encode len) ⟨P, s⟩ = .next ⟨P, s.complete s.coding (Report.success false)
        ((textCode s.coding.book (s.operand len)).map bitItem)⟩) ∧
    (∀ before x after, s.operand len = before ++ x :: after → textKnown s.coding.book before →
      (textCode s.coding.book before).length ≤ P.lenMax →
      (Memory.read s.coding.book (itemSymbol x) = none →
        exec (.encode len) ⟨P, s⟩ = .next ⟨P, s.raise (.unknownSymbol (itemSymbol x))⟩) ∧
      (∀ c, Memory.read s.coding.book (itemSymbol x) = some c →
        P.lenMax < (textCode s.coding.book before).length + c.length →
        exec (.encode len) ⟨P, s⟩ = .next ⟨P, s.raise .capacity⟩))

/-- R154: the empty text encodes to the empty bit string in every mode, and with an empty book, so in MODE
EMPTY, a text fails at its first symbol. -/
def Obligations.EncodeOfEmptyTextAndEmptyBook : Prop :=
  ∀ P : Params,
  (∀ s : Engine P, exec (.encode 0) ⟨P, s⟩ = .next ⟨P, s.complete s.coding (Report.success false) []⟩) ∧
  (∀ (len : Nat) (s : Engine P) (x : InItem P) (rest : List (InItem P)),
    (s.coding.book = [] ∨ (s.Inv ∧ s.coding.mode = .empty)) → s.operand len = x :: rest →
    exec (.encode len) ⟨P, s⟩ = .next ⟨P, s.raise (.unknownSymbol (itemSymbol x))⟩)

/-- R156: DECODE without a tree is DecodePreconditionError, whatever the operand, the empty one too. -/
def Obligations.DecodeNeedsATree : Prop :=
  ∀ (P : Params) (len : Nat) (s : Engine P), s.coding.mode ≠ .tree →
    exec (.decode len) ⟨P, s⟩ = .next ⟨P, s.raise .decodePrecondition⟩

/-- R159: with a one-leaf tree zero bits decode to the empty text and any bit is
MalformedBitstreamError. -/
def Obligations.DecodeWithOneLeaf : Prop :=
  ∀ (P : Params) (len : Nat) (s : Engine P) (a : Symbol P) (w : Nat), s.coding.mode = .tree →
    s.coding.tree = some (.leaf a w) →
    (s.operand len = [] →
      exec (.decode len) ⟨P, s⟩ = .next ⟨P, s.complete s.coding (Report.success false) []⟩) ∧
    (s.operand len ≠ [] → exec (.decode len) ⟨P, s⟩ = .next ⟨P, s.raise .malformedBitstream⟩)

/-- R157, R158, R160: with a tree of two leaves or more DECODE succeeds on every bit string; the bits split
into root-to-leaf paths, whose symbols it delivers, and a rest that reaches no leaf, which it drops;
PARTIAL is 1 exactly when that rest is not empty. -/
def Obligations.DecodeSplitsTheBitsIntoPaths : Prop :=
  ∀ (P : Params) (len : Nat) (s : Engine P) (w : Nat) (l r : Node P), s.coding.mode = .tree →
    s.coding.tree = some (.internal w l r) →
    (∃ text left, DecodesTo (.internal w l r) (itemBits (s.operand len)) text left) ∧
    (∀ text left, DecodesTo (.internal w l r) (itemBits (s.operand len)) text left →
      exec (.decode len) ⟨P, s⟩ =
        .next ⟨P, s.complete s.coding (Report.success (decide (left ≠ []))) text⟩)

/-- R161: with a tree of two leaves or more, what ENCODE gives for a text DECODE turns back into that text,
with PARTIAL 0; with a one-leaf tree it turns it into the empty text. -/
def Obligations.DecodeOfEncodeIsTheText : Prop :=
  ∀ (P : Params) (len : Nat) (s t : Engine P) (w : CmdWord P) (tree : Node P),
    P.Valid → s.Inv → s.coding.mode = .tree → s.coding.tree = some tree →
    exec (.encode len) ⟨P, s⟩ = .next ⟨P, t⟩ → t.report.err = none →
    exec (.decode t.staged.length) ⟨P, s.withOperand w (t.staged.map carryItem)⟩ =
      .next ⟨P, (s.withOperand w (t.staged.map carryItem)).complete s.coding (Report.success false)
        (if 2 ≤ (leafSymbols tree).length then itemSymbols (s.operand len) else [])⟩

/-! ### The serializer (43_serializer) -/

/-- R184: a tree with `n` leaves has `n − 1` inner nodes, and its serialization has `3n − 1` characters, at
most `3·NSYM − 1` when its leaf symbols are distinct. -/
def Obligations.SerializedLength : Prop :=
  ∀ (P : Params) (t : Node P),
    nodeCount t + 1 = (leafSymbols t).length + (leafSymbols t).length ∧
    (serNode t).length + 1 = 3 * (leafSymbols t).length ∧
    ((leafSymbols t).Nodup → (serNode t).length ≤ 3 * P.nsym - 1)

/-- R181: in every state that meets the invariant SAVE delivers the preorder string of the tree, or nothing
without a tree, ignores any operand, and changes nothing; a string over `LEN_MAX` characters is
CapacityError, which is impossible when `LEN_MAX ≥ 3·NSYM − 1`. -/
def Obligations.SaveDeliversTheTree : Prop :=
  ∀ (P : Params) (len : Nat) (s : Engine P), s.Inv →
    ((ser s.coding.tree).length ≤ P.lenMax →
      exec (.save len) ⟨P, s⟩ =
        .next ⟨P, s.complete s.coding (Report.success false) (ser s.coding.tree)⟩) ∧
    (P.lenMax < (ser s.coding.tree).length →
      exec (.save len) ⟨P, s⟩ = .next ⟨P, s.raise .capacity⟩) ∧
    (3 * P.nsym - 1 ≤ P.lenMax → (ser s.coding.tree).length ≤ P.lenMax)

/-- R187: PARSE is the inverse of SER up to weights, and leaves what follows the tree. -/
def Obligations.ParseInvertsSer : Prop :=
  ∀ (P : Params) (t : Node P) (rest : List (Symbol P)), P.Valid →
    parse (serNode t ++ rest) = .ok (zeroWeights t, rest)

/-- R185, R188, R191, R194: LOAD accepts exactly the empty data, which puts the engine in MODE EMPTY, and
the serializations of trees with distinct leaf symbols, whose tree it installs with every weight 0; for
all other data it ends with MalformedTreeDataError. -/
def Obligations.LoadAcceptsExactlyTheGrammar : Prop :=
  ∀ (P : Params) (len : Nat) (s : Engine P), P.Valid →
    (s.operand len = [] → exec (.load len) ⟨P, s⟩ = .next
      ⟨P, s.complete { mode := .empty, tree := none, book := [] } (Report.success false) []⟩) ∧
    (∀ t, (leafSymbols t).Nodup → itemSymbols (s.operand len) = serNode t →
      exec (.load len) ⟨P, s⟩ = .next
        ⟨P, s.complete (installTree (zeroWeights t)) (Report.success false) []⟩) ∧
    (s.operand len ≠ [] →
      (∀ t, (leafSymbols t).Nodup → itemSymbols (s.operand len) ≠ serNode t) →
      exec (.load len) ⟨P, s⟩ = .next ⟨P, s.raise .malformedTreeData⟩)

/-- R193: what SAVE gives, LOAD takes: the same shape and symbols with weights 0, the same book, and SAVE
gives the same string again; what LOAD took (at most `LEN_MAX` items, R6), SAVE gives back; without a tree SAVE
gives the empty string and LOAD of it puts the engine in MODE EMPTY with an empty book. -/
def Obligations.SaveAndLoadRoundTrip : Prop :=
  ∀ P : Params, P.Valid →
  (∀ (n m : Nat) (s u : Engine P) (w : CmdWord P) (t : Node P), s.Inv → s.coding.mode = .tree →
    s.coding.tree = some t → exec (.save n) ⟨P, s⟩ = .next ⟨P, u⟩ → u.report.err = none →
    ∃ v x, exec (.load u.staged.length) ⟨P, s.withOperand w (u.staged.map carryItem)⟩ = .next ⟨P, v⟩ ∧
      v.report.err = none ∧ v.coding.mode = .tree ∧ v.coding.tree = some (zeroWeights t) ∧
      v.coding.book = s.coding.book ∧
      exec (.save m) ⟨P, v⟩ = .next ⟨P, x⟩ ∧ x.report.err = none ∧ x.staged = u.staged) ∧
  (∀ (len n : Nat) (s v : Engine P), (s.operand len).length ≤ P.lenMax →
    exec (.load len) ⟨P, s⟩ = .next ⟨P, v⟩ → v.report.err = none →
    ∃ u, exec (.save n) ⟨P, v⟩ = .next ⟨P, u⟩ ∧ u.report.err = none ∧
      u.staged = itemSymbols (s.operand len)) ∧
  (∀ (n : Nat) (s : Engine P) (w : CmdWord P), s.coding.mode ≠ .tree →
    exec (.save n) ⟨P, s⟩ = .next ⟨P, s.complete s.coding (Report.success false) []⟩ ∧
    ∃ v, exec (.load 0) ⟨P, s.withOperand w []⟩ = .next ⟨P, v⟩ ∧ v.report.err = none ∧
      v.coding = { mode := .empty, tree := none, book := [] })

/-! ### The arena (10_state R36) -/

/-- R36, R34: BUILD on the arena, leaves in slots `0 … n−1` and merged nodes behind them in merge order,
fails exactly as BUILD on trees fails, and otherwise fills `2n − 1` slots with `ROOT = 2n − 2` that denote
the very tree BUILD gives. -/
def Obligations.BuildArenaDenotesTheTree : Prop :=
  ∀ (P : Params) (ft : FreqTable P),
    (∀ e, build ft = .error e → buildArena ft = .error e) ∧
    (∀ t, build ft = .ok t → ∃ a root, buildArena ft = .ok (a, root) ∧
      a.length = 2 * ft.length - 1 ∧ root = 2 * ft.length - 2 ∧
      arenaNode a.length a root = some t)

/-- R36: LOAD's preorder slots with `ROOT = 0` denote the tree. -/
def Obligations.PreorderArenaDenotesTheTree : Prop :=
  ∀ (P : Params) (t : Node P), (preorderSlots t 0).length = nodeCount t ∧
    arenaNode (nodeCount t) (preorderSlots t 0) 0 = some t
end

