-- ==== Sys2Proof/Laws/Config.lean ====
section
/-! SUPPORT. What the constraints on the parameters give (00_scope rule R6), for arithmetic. -/

namespace Sys2Proof

variable {P : Params}

/-- The defaults meet the constraints. -/
theorem Params.default_valid : Params.default.Valid :=
  ⟨by decide, by decide, by decide, by decide, by decide⟩

/-- The values of the derived parameters at the defaults, from the table of R6. -/
theorem Params.default_derived :
    Params.default.nsym = 256 ∧ Params.default.lenMax = 4294967295 ∧ Params.default.inW = 40 ∧
      Params.default.cmdW = 40 ∧ Params.default.rspW = 48 ∧ Params.default.nodeMax = 511 := by decide

theorem Params.nsym_pos (P : Params) : 1 ≤ P.nsym := Nat.one_le_two_pow

theorem Params.lenMax_succ (P : Params) : P.lenMax + 1 = 2 ^ P.lenW :=
  Nat.sub_add_cancel Nat.one_le_two_pow

theorem Params.weightMax_succ (P : Params) : P.weightMax + 1 = 2 ^ P.weightW :=
  Nat.sub_add_cancel Nat.one_le_two_pow

/-- `WEIGHT_W ≥ LEN_W`: a count of items fits a weight (R110). -/
theorem Params.Valid.lenMax_le (h : P.Valid) : P.lenMax ≤ P.weightMax :=
  Nat.sub_le_sub_right (Nat.pow_le_pow_right (by omega) h.lenW_le) 1

/-- `LEN` of any word is at most `LEN_MAX` (R70). -/
theorem cmdLen_le (w : CmdWord P) : cmdLen w ≤ P.lenMax := by
  have h1 : cmdLen w < 2 ^ P.lenW := BitVec.isLt _
  have h2 := P.lenMax_succ
  omega

/-- A count field is at most `2^WEIGHT_W − 1` (R79). -/
theorem Machine.itemCount_le (x : InItem P) : Machine.itemCount x ≤ P.weightMax := by
  have h1 : Machine.itemCount x < 2 ^ P.weightW := BitVec.isLt _
  have h2 := P.weightMax_succ
  omega

end Sys2Proof
end

