-- ==== Sys2Proof/Laws/Memory.lean ====
section
/-! SUPPORT. The internal memories (20_memory rule R51): read after write, the canonical form, and that a
memory in canonical form is determined by its reads. -/

namespace Sys2Proof.Machine

variable {P : Params} {β : Type}

theorem Memory.wf_iff (m : Memory P β) : Memory.wf m = true ↔ m.Pairwise (fun x y => x.1 < y.1) := by
  induction m with
  | nil => simp [Memory.wf]
  | cons e m ih =>
    cases m with
    | nil => simp [Memory.wf]
    | cons f m =>
      obtain ⟨a, u⟩ := e
      obtain ⟨b, v⟩ := f
      simp only [Memory.wf, Bool.and_eq_true, decide_eq_true_eq, ih, List.pairwise_cons, List.mem_cons,
        forall_eq_or_imp]
      constructor
      · rintro ⟨hab, hb, hm⟩
        exact ⟨⟨hab, fun x hx => BitVec.lt_trans hab (hb x hx)⟩, hb, hm⟩
      · rintro ⟨⟨hab, -⟩, hb, hm⟩
        exact ⟨hab, hb, hm⟩

@[simp] theorem Memory.read_nil (a : Symbol P) : Memory.read ([] : Memory P β) a = none := rfl

theorem Memory.read_write_same (m : Memory P β) (a : Symbol P) (v : β) :
    Memory.read (Memory.write m a v) a = some v := by
  induction m with
  | nil => simp [Memory.write, Memory.read]
  | cons e m ih =>
    obtain ⟨k, u⟩ := e
    simp only [Memory.write]
    split
    · simp [Memory.read]
    · split
      · simp [Memory.read]
      · rename_i h
        simp [Memory.read, h, ih]

theorem Memory.read_write_other (m : Memory P β) {a b : Symbol P} (v : β) (hab : a ≠ b) :
    Memory.read (Memory.write m a v) b = Memory.read m b := by
  induction m with
  | nil => simp [Memory.write, Memory.read, hab]
  | cons e m ih =>
    obtain ⟨k, u⟩ := e
    simp only [Memory.write]
    split
    · simp [Memory.read, hab]
    · split
      · rename_i h
        simp [Memory.read, h, hab]
      · simp [Memory.read, ih]

/-- Everything a write does, in one line. -/
theorem Memory.read_write (m : Memory P β) (a b : Symbol P) (v : β) :
    Memory.read (Memory.write m a v) b = if a = b then some v else Memory.read m b := by
  split
  · rename_i h
    exact h ▸ Memory.read_write_same m a v
  · exact Memory.read_write_other m v ‹_›

theorem Memory.mem_write {m : Memory P β} {a : Symbol P} {v : β} {e : (Symbol P) × β}
    (he : e ∈ Memory.write m a v) : e = (a, v) ∨ e ∈ m := by
  induction m with
  | nil => simpa [Memory.write] using he
  | cons f m ih =>
    obtain ⟨k, u⟩ := f
    simp only [Memory.write] at he
    split at he
    · simpa using he
    · split at he
      · rcases List.mem_cons.mp he with h | h
        · exact .inl h
        · exact .inr (List.mem_cons_of_mem _ h)
      · rcases List.mem_cons.mp he with h | h
        · exact .inr (h ▸ List.mem_cons_self)
        · exact (ih h).imp id (List.mem_cons_of_mem _)

/-- A write keeps the canonical form. -/
theorem Memory.write_wf (m : Memory P β) (a : Symbol P) (v : β) (hm : Memory.wf m = true) :
    Memory.wf (Memory.write m a v) = true := by
  rw [Memory.wf_iff] at *
  induction m with
  | nil => simp [Memory.write]
  | cons e m ih =>
    obtain ⟨k, u⟩ := e
    obtain ⟨hk, hm'⟩ := List.pairwise_cons.mp hm
    simp only [Memory.write]
    split
    · rename_i hak
      refine List.pairwise_cons.mpr ⟨fun f hf => ?_, hm⟩
      rcases List.mem_cons.mp hf with rfl | hf
      · exact hak
      · exact BitVec.lt_trans hak (hk f hf)
    · split
      · rename_i hka
        subst hka
        exact List.pairwise_cons.mpr ⟨fun f hf => hk f hf, hm'⟩
      · rename_i h1 h2
        refine List.pairwise_cons.mpr ⟨fun f hf => ?_, ih hm'⟩
        rcases Memory.mem_write hf with rfl | hf
        · exact BitVec.lt_of_le_ne (BitVec.not_lt.mp h1) h2
        · exact hk f hf

theorem Memory.read_of_mem {m : Memory P β} (hm : Memory.wf m = true) {e : (Symbol P) × β} (he : e ∈ m) :
    Memory.read m e.1 = some e.2 := by
  rw [Memory.wf_iff] at hm
  induction m with
  | nil => cases he
  | cons f m ih =>
    obtain ⟨hf, hm'⟩ := List.pairwise_cons.mp hm
    rcases List.mem_cons.mp he with rfl | h
    · simp [Memory.read]
    · have : f.1 ≠ e.1 := fun hne => absurd (hf e h) (by rw [hne]; exact BitVec.lt_irrefl _)
      simpa [Memory.read, this] using ih hm' h

theorem Memory.mem_of_read {m : Memory P β} {a : Symbol P} {v : β} (h : Memory.read m a = some v) :
    (a, v) ∈ m := by
  induction m with
  | nil => cases h
  | cons f m ih =>
    obtain ⟨k, u⟩ := f
    simp only [Memory.read] at h
    split at h
    · rename_i hk
      cases h
      exact hk ▸ List.mem_cons_self
    · exact List.mem_cons_of_mem _ (ih h)

/-- In canonical form, an entry is listed exactly when it is read. -/
theorem Memory.mem_iff_read {m : Memory P β} (hm : Memory.wf m = true) (a : Symbol P) (v : β) :
    (a, v) ∈ m ↔ Memory.read m a = some v :=
  ⟨fun h => Memory.read_of_mem hm h, Memory.mem_of_read⟩

/-- Equal reads make equal memories: the canonical form is one form per memory. -/
theorem Memory.ext {m n : Memory P β} (hm : Memory.wf m = true) (hn : Memory.wf n = true)
    (h : ∀ a, Memory.read m a = Memory.read n a) : m = n := by
  have hmem : ∀ e : (Symbol P) × β, e ∈ m ↔ e ∈ n := fun e => by
    rw [Memory.mem_iff_read hm e.1 e.2, Memory.mem_iff_read hn e.1 e.2, h]
  rw [Memory.wf_iff] at hm hn
  have nodup : ∀ {l : Memory P β}, l.Pairwise (fun x y => x.1 < y.1) → l.Nodup := fun hl =>
    hl.imp (fun {x y} hxy he => absurd hxy (by rw [he]; exact BitVec.lt_irrefl _))
  refine List.Perm.eq_of_pairwise ?_ hm hn ((List.perm_ext_iff_of_nodup (nodup hm) (nodup hn)).mpr hmem)
  intro a b _ _ hab hba
  exact absurd (BitVec.lt_trans hab hba) (BitVec.lt_irrefl _)

/-- The book after reset is in canonical form. -/
theorem Memory.reset_wf : Memory.wf (Engine.reset (P := P)).coding.book = true := rfl

/-- A canonical memory has at most one entry per symbol value. -/
theorem Memory.length_le {m : Memory P β} (hm : Memory.wf m = true) : m.length ≤ P.nsym := by
  rw [Memory.wf_iff] at hm
  have hnd : (m.map (fun e => e.1.toFin)).Nodup := by
    rw [List.Nodup, List.pairwise_map]
    refine hm.imp (fun {x y} hxy he => ?_)
    have : x.1 = y.1 := BitVec.eq_of_toFin_eq he
    exact absurd hxy (by rw [this]; exact BitVec.lt_irrefl _)
  have := List.Nodup.length_le_card hnd
  simpa [Params.nsym] using this

end Sys2Proof.Machine
end

