-- ==== Sys2Proof/Laws/Build.lean ====
section
/-! SUPPORT. The frequency table and the priority collection (40_tree_build rules R102 to R107): what a pop
returns, what a turn of the merge does, what the operand scans leave in FT. -/

namespace Sys2Proof.Machine

variable {P : Params}

/-! ### The key order (R106) -/

theorem Entry.before_iff (a b : Entry P) :
    a.before b = true ↔ nodeWeight a.node < nodeWeight b.node ∨
      (nodeWeight a.node = nodeWeight b.node ∧ a.seq < b.seq) := by
  simp [Entry.before]

theorem Entry.before_trans {a b c : Entry P} (hab : a.before b = true) (hbc : b.before c = true) :
    a.before c = true := by
  rw [Entry.before_iff] at *
  omega

/-- With distinct sequence numbers one of two keys is the lesser (R106). -/
theorem Entry.before_of_not {a b : Entry P} (hs : a.seq ≠ b.seq) (h : ¬ b.before a = true) :
    a.before b = true := by
  rw [Entry.before_iff] at *
  omega

/-! ### popmin (R106) -/

theorem popMin_eq_none {pq : List (Entry P)} : popMin pq = none ↔ pq = [] := by
  cases pq with
  | nil => simp [popMin]
  | cons e es =>
    simp only [popMin, reduceCtorEq, iff_false]
    split
    · simp
    · split <;> simp

/-- A pop takes an entry out and leaves the others. -/
theorem popMin_perm {pq rest : List (Entry P)} {m : Entry P} (h : popMin pq = some (m, rest)) :
    pq.Perm (m :: rest) := by
  induction pq generalizing m rest with
  | nil => cases h
  | cons e es ih =>
    simp only [popMin] at h
    split at h
    · rename_i hn
      rw [popMin_eq_none] at hn
      cases h
      rw [hn]
    · rename_i m' rest' hm
      split at h
      · cases h
        rfl
      · cases h
        exact ((ih hm).cons e).trans (List.Perm.swap m e rest')

/-- The entry a pop returns has the least key. -/
theorem popMin_least {pq rest : List (Entry P)} {m : Entry P} (hd : (pq.map Entry.seq).Nodup)
    (h : popMin pq = some (m, rest)) : ∀ e ∈ rest, m.before e = true := by
  induction pq generalizing m rest with
  | nil => cases h
  | cons e es ih =>
    obtain ⟨he, hd'⟩ := List.nodup_cons.mp hd
    simp only [popMin] at h
    split at h
    · cases h
      simp
    · rename_i m' rest' hm
      have hperm := popMin_perm hm
      have hleast := ih hd' hm
      split at h
      · rename_i hb
        cases h
        intro f hf
        rcases List.mem_cons.mp (hperm.mem_iff.mp hf) with rfl | hf
        · exact hb
        · exact Entry.before_trans hb (hleast f hf)
      · rename_i hb
        cases h
        intro f hf
        rcases List.mem_cons.mp hf with rfl | hf
        · have hmem : m ∈ es := hperm.mem_iff.mpr List.mem_cons_self
          exact Entry.before_of_not (fun hs => he (hs ▸ List.mem_map_of_mem hmem)) hb
        · exact hleast f hf

theorem popMin_length {pq rest : List (Entry P)} {m : Entry P} (h : popMin pq = some (m, rest)) :
    pq.length = rest.length + 1 := (popMin_perm h).length_eq

/-! ### One turn of the merge (R107) -/

/-- Everything a turn can do with two nodes or more. -/
theorem mergeStep_cases {pq : List (Entry P)} (nseq : Nat) (h2 : 2 ≤ pq.length) :
    ∃ a b pq1 pq2, popMin pq = some (a, pq1) ∧ popMin pq1 = some (b, pq2) ∧
      pq.Perm (a :: b :: pq2) ∧
      mergeStep pq nseq =
        if P.weightMax < nodeWeight a.node + nodeWeight b.node then .error .capacity
        else .ok ({ seq := nseq,
                    node := .internal (nodeWeight a.node + nodeWeight b.node) a.node b.node } :: pq2) := by
  cases h : popMin pq with
  | none =>
    rw [popMin_eq_none] at h
    subst h
    simp at h2
  | some p =>
    obtain ⟨a, pq1⟩ := p
    have hl := popMin_length h
    cases h1 : popMin pq1 with
    | none =>
      rw [popMin_eq_none] at h1
      subst h1
      simp at hl
      omega
    | some q =>
      obtain ⟨b, pq2⟩ := q
      refine ⟨a, b, pq1, pq2, rfl, h1, (popMin_perm h).trans ((popMin_perm h1).cons a), ?_⟩
      simp [mergeStep, h, h1]

/-- The turns one by one. -/
@[simp] theorem mergeTimes_zero (pq : List (Entry P)) (n : Nat) : mergeTimes 0 pq n = .ok pq := rfl

theorem mergeTimes_succ (k : Nat) (pq : List (Entry P)) (n : Nat) :
    mergeTimes (k + 1) pq n =
      match mergeStep pq n with
      | .ok pq' => mergeTimes k pq' (n + 1)
      | .error e => .error e := rfl

/-! ### The leaves (R105) -/

@[simp] theorem leafEntries_length (i : Nat) (ft : FreqTable P) : (leafEntries i ft).length = ft.length := by
  induction ft generalizing i with
  | nil => rfl
  | cons e ft ih => simp [leafEntries, ih]

theorem leafEntries_seqs (i : Nat) (ft : FreqTable P) :
    (leafEntries i ft).map Entry.seq = List.range' i ft.length := by
  induction ft generalizing i with
  | nil => rfl
  | cons e ft ih => simp [leafEntries, ih, List.range'_succ]

theorem leafEntries_nodes (i : Nat) (ft : FreqTable P) :
    (leafEntries i ft).map Entry.node = ft.map (fun e => Node.leaf e.1 e.2) := by
  induction ft generalizing i with
  | nil => rfl
  | cons e ft ih => simp [leafEntries, ih]

/-! ### The frequency table (R33, R102, R103) -/

@[simp] theorem countOf_nil (a : Symbol P) : countOf [] a = 0 := rfl

theorem countOf_write (ft : FreqTable P) (a b : Symbol P) (n : Nat) :
    countOf (Memory.write ft a n) b = if a = b then n else countOf ft b := by
  unfold countOf
  rw [Memory.read_write]
  split <;> rfl

/-- Counting a text adds to each symbol its number of occurrences. -/
theorem countOf_countText (text : List (Symbol P)) (ft : FreqTable P) (a : Symbol P) :
    countOf (countText text ft) a = countOf ft a + text.count a := by
  induction text generalizing ft with
  | nil => simp [countText]
  | cons s text ih =>
    rw [countText, ih, countOf_write, List.count_cons]
    by_cases h : s = a
    · subst h
      simp
      omega
    · simp [h]

theorem countText_wf (text : List (Symbol P)) (ft : FreqTable P) (h : Memory.wf ft = true) :
    Memory.wf (countText text ft) = true := by
  induction text generalizing ft with
  | nil => exact h
  | cons s text ih => exact ih _ (Memory.write_wf ft s _ h)

/-- Counting a text lists no symbol with a zero count. -/
theorem countText_pos (text : List (Symbol P)) (ft : FreqTable P) (h : ∀ e ∈ ft, e.2 ≠ 0) :
    ∀ e ∈ countText text ft, e.2 ≠ 0 := by
  induction text generalizing ft with
  | nil => exact h
  | cons s text ih =>
    refine ih _ (fun e he => ?_)
    rcases Memory.mem_write he with rfl | he
    · simp
    · exact h e he

/-- Everything the operand scan of BUILD_FREQ can leave: every pair has a positive count and a new symbol,
FT holds them beside what it held, in canonical form (R103, R116, R117). -/
theorem fillPairs_ok {xs : List (InItem P)} {ft ft' : FreqTable P} (h : fillPairs xs ft = .ok ft') :
    (∀ x ∈ xs, itemCount x ≠ 0) ∧ (itemSymbols xs).Nodup ∧
      (∀ x ∈ xs, countOf ft (itemSymbol x) = 0) ∧
      (∀ x ∈ xs, countOf ft' (itemSymbol x) = itemCount x) ∧
      (∀ a, a ∉ itemSymbols xs → Memory.read ft' a = Memory.read ft a) ∧
      (Memory.wf ft = true → Memory.wf ft' = true) := by
  induction xs generalizing ft with
  | nil =>
    cases h
    simp [itemSymbols]
  | cons x xs ih =>
    simp only [fillPairs] at h
    split at h
    · cases h
    rename_i hx
    split at h
    · cases h
    rename_i hf
    obtain ⟨h1, h2, h3, h4, h5, h6⟩ := ih h
    have hnew : itemSymbol x ∉ itemSymbols xs := by
      intro hmem
      obtain ⟨y, hy, hs⟩ := List.mem_map.mp hmem
      have := h3 y hy
      rw [hs, countOf_write] at this
      simp at this
      exact hx this
    have hcx : countOf ft' (itemSymbol x) = itemCount x := by
      rw [countOf, h5 _ hnew, Memory.read_write_same]
      rfl
    refine ⟨?_, ?_, ?_, ?_, ?_, fun hw => h6 (Memory.write_wf _ _ _ hw)⟩
    · simpa using ⟨hx, h1⟩
    · exact List.nodup_cons.mpr ⟨hnew, h2⟩
    · intro y hy
      rcases List.mem_cons.mp hy with rfl | hy
      · simpa using hf
      · have := h3 y hy
        rw [countOf_write] at this
        split at this
        · rename_i hs
          exact absurd (List.mem_map.mpr ⟨y, hy, hs.symm⟩) hnew
        · exact this
    · intro y hy
      rcases List.mem_cons.mp hy with rfl | hy
      · exact hcx
      · exact h4 y hy
    · intro a ha
      simp only [itemSymbols, List.map_cons, List.mem_cons, not_or] at ha
      rw [h5 a (by simpa [itemSymbols] using ha.2), Memory.read_write_other _ _ (Ne.symm ha.1)]

/-- The scan refuses only with InvalidOperandError. -/
theorem fillPairs_error {xs : List (InItem P)} {ft : FreqTable P} {e : Error P}
    (h : fillPairs xs ft = .error e) : e = .invalidOperand := by
  induction xs generalizing ft with
  | nil => cases h
  | cons x xs ih =>
    simp only [fillPairs] at h
    split at h
    · exact (Except.error.inj h).symm
    · split at h
      · exact (Except.error.inj h).symm
      · exact ih h

/-- The scan accepts pairs with positive counts and distinct symbols not counted before. -/
theorem fillPairs_of_ok {xs : List (InItem P)} {ft : FreqTable P} (h1 : ∀ x ∈ xs, itemCount x ≠ 0)
    (h2 : (itemSymbols xs).Nodup) (h3 : ∀ x ∈ xs, countOf ft (itemSymbol x) = 0) :
    ∃ ft', fillPairs xs ft = .ok ft' := by
  induction xs generalizing ft with
  | nil => exact ⟨ft, rfl⟩
  | cons x xs ih =>
    obtain ⟨hx, h2'⟩ := List.nodup_cons.mp h2
    simp only [fillPairs, h1 x List.mem_cons_self, h3 x List.mem_cons_self, if_false, ne_eq,
      not_true_eq_false]
    refine ih (fun y hy => h1 y (List.mem_cons_of_mem _ hy)) h2' (fun y hy => ?_)
    rw [countOf_write, if_neg]
    · exact h3 y (List.mem_cons_of_mem _ hy)
    · exact fun hs => hx (List.mem_map.mpr ⟨y, hy, hs.symm⟩)

end Sys2Proof.Machine
end

