-- ==== Sys2Proof/Laws/Tree.lean ====
section
/-! SUPPORT. Trees, paths and DERIVE (10_state rules R24, R25; 41_codebook R130, R131). -/

namespace Sys2Proof.Machine

variable {P : Params}

theorem leafSymbols_eq_map (t : Node P) : leafSymbols t = (leafPairs t).map Prod.fst := by
  induction t with
  | leaf s w => rfl
  | internal w l r ihl ihr => simp [leafSymbols, leafPairs, ihl, ihr]

theorem leafSymbols_ne_nil (t : Node P) : leafSymbols t ≠ [] := by
  induction t with
  | leaf s w => simp [leafSymbols]
  | internal w l r ihl _ => simp [leafSymbols, ihl]

@[simp] theorem nodeAt_nil (t : Node P) : nodeAt t [] = some t := by
  cases t <;> rfl

@[simp] theorem nodeAt_leaf_cons (s : Symbol P) (w : Nat) (b : Bool) (p : Code) :
    nodeAt (.leaf s w) (b :: p) = none := rfl

@[simp] theorem nodeAt_internal_false (w : Nat) (l r : Node P) (p : Code) :
    nodeAt (.internal w l r) (false :: p) = nodeAt l p := rfl

@[simp] theorem nodeAt_internal_true (w : Nat) (l r : Node P) (p : Code) :
    nodeAt (.internal w l r) (true :: p) = nodeAt r p := rfl

/-- A path through an inner node is a path of the subtree below it. -/
theorem nodeAt_append {t u : Node P} {p : Code} (q : Code) (h : nodeAt t p = some u) :
    nodeAt t (p ++ q) = nodeAt u q := by
  induction p generalizing t with
  | nil =>
    rw [nodeAt_nil] at h
    cases h
    rfl
  | cons b p ih =>
    cases t with
    | leaf s w => cases h
    | internal w l r => cases b <;> exact ih h

/-- The leaf symbols are the symbols some path leads to. -/
theorem mem_leafSymbols_iff (t : Node P) (a : Symbol P) :
    a ∈ leafSymbols t ↔ ∃ p w, nodeAt t p = some (.leaf a w) := by
  induction t with
  | leaf s w =>
    simp only [leafSymbols, List.mem_singleton]
    constructor
    · rintro rfl
      exact ⟨[], w, rfl⟩
    · rintro ⟨p, v, hp⟩
      cases p with
      | nil => rw [nodeAt_nil] at hp; cases hp; rfl
      | cons b p => cases hp
  | internal w l r ihl ihr =>
    simp only [leafSymbols, List.mem_append, ihl, ihr]
    constructor
    · rintro (⟨p, v, hp⟩ | ⟨p, v, hp⟩)
      · exact ⟨false :: p, v, hp⟩
      · exact ⟨true :: p, v, hp⟩
    · rintro ⟨p, v, hp⟩
      cases p with
      | nil => rw [nodeAt_nil] at hp; cases hp
      | cons b p => cases b <;> [exact .inl ⟨p, v, hp⟩; exact .inr ⟨p, v, hp⟩]

/-! ### WALK -/

theorem walkTree_wf (t : Node P) (p : Code) (b : Book P) (hb : Memory.wf b = true) :
    Memory.wf (walkTree t p b) = true := by
  induction t generalizing p b with
  | leaf s w => exact Memory.write_wf b s p hb
  | internal w l r ihl ihr => exact ihr _ _ (ihl _ _ hb)

/-- WALK writes no entry of a symbol that has no leaf. -/
theorem walkTree_read_of_notMem (t : Node P) (p : Code) (b : Book P) {a : Symbol P}
    (ha : a ∉ leafSymbols t) : Memory.read (walkTree t p b) a = Memory.read b a := by
  induction t generalizing p b with
  | leaf s w =>
    exact Memory.read_write_other b p (fun h => ha (by simp [leafSymbols, h]))
  | internal w l r ihl ihr =>
    simp only [leafSymbols, List.mem_append, not_or] at ha
    rw [walkTree, ihr _ _ ha.2, ihl _ _ ha.1]

/-- WALK writes each leaf's path, behind the path it starts from, as its symbol's code. -/
theorem walkTree_read_of_nodeAt (t : Node P) (p : Code) (b : Book P) (hn : (leafSymbols t).Nodup)
    {a : Symbol P} {q : Code} {w : Nat} (hq : nodeAt t q = some (.leaf a w)) :
    Memory.read (walkTree t p b) a = some (p ++ q) := by
  induction t generalizing p b q with
  | leaf s v =>
    cases q with
    | nil =>
      rw [nodeAt_nil] at hq
      cases hq
      simpa [walkTree] using Memory.read_write_same b a p
    | cons c q => cases hq
  | internal v l r ihl ihr =>
    rw [leafSymbols, List.nodup_append] at hn
    obtain ⟨hl, hr, hd⟩ := hn
    cases q with
    | nil => rw [nodeAt_nil] at hq; cases hq
    | cons c q =>
      cases c with
      | false =>
        have hmem : a ∈ leafSymbols l := (mem_leafSymbols_iff l a).mpr ⟨q, w, hq⟩
        have hnot : a ∉ leafSymbols r := fun h => hd a hmem a h rfl
        rw [walkTree, walkTree_read_of_notMem r _ _ hnot, ihl _ _ hl hq]
        simp
      | true =>
        rw [walkTree, ihr _ _ hr hq]
        simp

/-- DERIVE gives a book in canonical form. -/
theorem derive_wf (t : Option (Node P)) : Memory.wf (derive t) = true := by
  cases t with
  | none => rfl
  | some t => exact walkTree_wf t [] [] rfl

/-! ### The weights play no part in shape, book or string (R39, R183) -/

@[simp] theorem leafSymbols_zeroWeights (t : Node P) : leafSymbols (zeroWeights t) = leafSymbols t := by
  induction t with
  | leaf s w => rfl
  | internal w l r ihl ihr => simp [zeroWeights, leafSymbols, ihl, ihr]

@[simp] theorem serNode_zeroWeights (t : Node P) : serNode (zeroWeights t) = serNode t := by
  induction t with
  | leaf s w => rfl
  | internal w l r ihl ihr => simp [zeroWeights, serNode, ihl, ihr]

@[simp] theorem walkTree_zeroWeights (t : Node P) (p : Code) (b : Book P) :
    walkTree (zeroWeights t) p b = walkTree t p b := by
  induction t generalizing p b with
  | leaf s w => rfl
  | internal w l r ihl ihr => simp [zeroWeights, walkTree, ihl, ihr]

@[simp] theorem derive_zeroWeights (t : Node P) : derive (some (zeroWeights t)) = derive (some t) :=
  walkTree_zeroWeights t [] []

@[simp] theorem nodeWeight_zeroWeights (t : Node P) : nodeWeight (zeroWeights t) = 0 := by
  cases t <;> rfl

@[simp] theorem weightsAdd_zeroWeights (t : Node P) : weightsAdd (zeroWeights t) = true := by
  induction t with
  | leaf s w => rfl
  | internal w l r ihl ihr => simp [zeroWeights, weightsAdd, ihl, ihr]

@[simp] theorem zeroWeights_zeroWeights (t : Node P) : zeroWeights (zeroWeights t) = zeroWeights t := by
  induction t with
  | leaf s w => rfl
  | internal w l r ihl ihr => simp [zeroWeights, ihl, ihr]

end Sys2Proof.Machine
end

