-- ==== Sys2Proof/Laws/Codec.lean ====
section
/-! SUPPORT. The loops of ENCODE and DECODE (42_codec rules R152, R155). -/

namespace Sys2Proof.Machine

variable {P : Params}

/-! ### ENCODE -/

@[simp] theorem encodeText_nil (b : Book P) (n : Nat) : encodeText b [] n = .ok [] := rfl

theorem encodeText_unknown {b : Book P} {s : Symbol P} (text : List (Symbol P)) (n : Nat)
    (h : Memory.read b s = none) : encodeText b (s :: text) n = .error (.unknownSymbol s) := by
  simp [encodeText, h]

theorem encodeText_capacity {b : Book P} {s : Symbol P} {c : Code} (text : List (Symbol P)) {n : Nat}
    (h : Memory.read b s = some c) (hn : P.lenMax < n + c.length) :
    encodeText b (s :: text) n = .error .capacity := by
  simp only [encodeText, h, hn, if_true]

theorem encodeText_cons {b : Book P} {s : Symbol P} {c : Code} (text : List (Symbol P)) {n : Nat}
    (h : Memory.read b s = some c) (hn : n + c.length ≤ P.lenMax) :
    encodeText b (s :: text) n = (encodeText b text (n + c.length)).map (fun bits => c ++ bits) := by
  simp only [encodeText, h, Nat.not_lt.mpr hn, if_false]
  cases encodeText b text (n + c.length) <;> rfl

/-- Everything a success of ENCODE's loop says: every symbol is in the book, the bits are their codes, and
with what was pushed before they fit. -/
theorem encodeText_ok {b : Book P} {text : List (Symbol P)} {n : Nat} {bits : Code} (hn : n ≤ P.lenMax)
    (h : encodeText b text n = .ok bits) :
    (∀ s ∈ text, (Memory.read b s).isSome) ∧
      bits = text.flatMap (fun s => (Memory.read b s).getD []) ∧ n + bits.length ≤ P.lenMax := by
  induction text generalizing n bits with
  | nil =>
    cases h
    simpa using hn
  | cons s text ih =>
    cases hr : Memory.read b s with
    | none =>
      rw [encodeText_unknown text n hr] at h
      cases h
    | some c =>
      by_cases hc : n + c.length ≤ P.lenMax
      · rw [encodeText_cons text hr hc] at h
        cases he : encodeText b text (n + c.length) with
        | error e => rw [he] at h; cases h
        | ok bits' =>
          rw [he] at h
          cases h
          obtain ⟨h1, h2, h3⟩ := ih hc he
          refine ⟨?_, ?_, ?_⟩
          · intro x hx
            rcases List.mem_cons.mp hx with rfl | hx
            · simp [hr]
            · exact h1 x hx
          · rw [List.flatMap_cons, hr, ← h2]
            rfl
          · rw [List.length_append]
            omega
      · rw [encodeText_capacity text hr (Nat.lt_of_not_le hc)] at h
        cases h

/-- The errors of ENCODE's loop. -/
theorem encodeText_error {b : Book P} {text : List (Symbol P)} {n : Nat} {e : Error P}
    (h : encodeText b text n = .error e) : (∃ s ∈ text, e = .unknownSymbol s) ∨ e = .capacity := by
  induction text generalizing n with
  | nil => cases h
  | cons s text ih =>
    cases hr : Memory.read b s with
    | none =>
      rw [encodeText_unknown text n hr] at h
      exact .inl ⟨s, List.mem_cons_self, (Except.error.inj h).symm⟩
    | some c =>
      by_cases hc : n + c.length ≤ P.lenMax
      · rw [encodeText_cons text hr hc] at h
        cases he : encodeText b text (n + c.length) with
        | ok bits => rw [he] at h; cases h
        | error e' =>
          rw [he] at h
          cases h
          exact (ih he).imp (fun ⟨x, hx, hs⟩ => ⟨x, List.mem_cons_of_mem _ hx, hs⟩) id
      · rw [encodeText_capacity text hr (Nat.lt_of_not_le hc)] at h
        exact .inr (Except.error.inj h).symm

/-! ### DECODE -/

@[simp] theorem walkBits_nil (root cur : Node P) (mid : Bool) : walkBits root cur mid [] = .ok ([], mid) := by
  cases cur <;> rfl

@[simp] theorem walkBits_leaf (root : Node P) (s : Symbol P) (w : Nat) (mid b : Bool) (bits : Code) :
    walkBits root (.leaf s w) mid (b :: bits) = .error .malformedBitstream := rfl

/-- A root-to-leaf path emits its symbol and the walk restarts from the root (R155, R157). -/
theorem walkBits_path (root : Node P) {cur : Node P} {p : Code} {s : Symbol P} {v : Nat} (mid : Bool)
    (rest : Code) (hp : p ≠ []) (h : nodeAt cur p = some (.leaf s v)) :
    walkBits root cur mid (p ++ rest) =
      (walkBits root root false rest).map (fun r => (s :: r.1, r.2)) := by
  induction p generalizing cur mid with
  | nil => exact absurd rfl hp
  | cons b p ih =>
    cases cur with
    | leaf a w => cases h
    | internal w l r =>
      have hnext : ∀ u : Node P, (if b then r else l) = u → nodeAt u p = some (.leaf s v) := by
        intro u hu
        rw [← hu]
        cases b <;> exact h
      cases hu : (if b then r else l) with
      | leaf a w' =>
        have := hnext _ hu
        cases p with
        | nil =>
          rw [nodeAt_nil] at this
          cases this
          simp only [List.cons_append, List.nil_append, walkBits, hu]
          cases walkBits root root false rest <;> rfl
        | cons c p => cases this
      | internal w' l' r' =>
        have := hnext _ hu
        cases p with
        | nil => rw [nodeAt_nil] at this; cases this
        | cons c p =>
          simp only [List.cons_append, walkBits, hu]
          exact ih true (by simp) this

/-- A path that stops at an inner node emits nothing (R160). -/
theorem walkBits_left (root : Node P) {cur : Node P} {p : Code} {w : Nat} {l r : Node P} (mid : Bool)
    (h : nodeAt cur p = some (.internal w l r)) :
    walkBits root cur mid p = .ok ([], mid || decide (p ≠ [])) := by
  induction p generalizing cur mid with
  | nil => simp
  | cons b p ih =>
    cases cur with
    | leaf a w => cases h
    | internal w0 l0 r0 =>
      have hnext : ∀ u : Node P, (if b then r0 else l0) = u → nodeAt u p = some (.internal w l r) := by
        intro u hu
        rw [← hu]
        cases b <;> exact h
      cases hu : (if b then r0 else l0) with
      | leaf a w' =>
        have := hnext _ hu
        cases p with
        | nil => rw [nodeAt_nil] at this; cases this
        | cons c p => cases this
      | internal w' l' r' =>
        simp only [walkBits, hu]
        rw [ih true (hnext _ hu)]
        simp

/-- The walk emits at most one symbol a bit. -/
theorem walkBits_length {root cur : Node P} {mid m : Bool} {bits : Code} {text : List (Symbol P)}
    (h : walkBits root cur mid bits = .ok (text, m)) : text.length ≤ bits.length := by
  induction bits generalizing cur mid text with
  | nil =>
    rw [walkBits_nil] at h
    cases h
    simp
  | cons b bits ih =>
    cases cur with
    | leaf a w => cases h
    | internal w l r =>
      simp only [walkBits] at h
      split at h
      · split at h
        · rename_i he
          cases h
          have := ih he
          simp only [List.length_cons]
          omega
        · cases h
      · have := ih h
        simp only [List.length_cons]
        omega

/-- The one error of the walk. -/
theorem walkBits_error {root cur : Node P} {mid : Bool} {bits : Code} {e : Error P}
    (h : walkBits root cur mid bits = .error e) : e = .malformedBitstream := by
  induction bits generalizing cur mid with
  | nil =>
    rw [walkBits_nil] at h
    cases h
  | cons b bits ih =>
    cases cur with
    | leaf a w => exact (Except.error.inj h).symm
    | internal w l r =>
      simp only [walkBits] at h
      split at h
      · split at h
        · cases h
        · rename_i he
          cases h
          exact ih he
      · exact ih h

end Sys2Proof.Machine
end

