-- ==== Sys2Proof/Laws/Decode.lean ====
section
/-! SUPPORT. The fields of an encoded command (30_encoding rule R70), and of the words of the interface. -/

namespace Sys2Proof

variable {P : Params}

@[simp] theorem cmdOp_encode (i : Instr) : cmdOp (encode P i) = opcode i := by
  unfold cmdOp encode
  ext k hk
  simp only [BitVec.getElem_extractLsb', BitVec.getLsbD_append, Nat.zero_add, hk, if_true,
    BitVec.getLsbD_eq_getElem]

@[simp] theorem cmdRsvd_encode (i : Instr) : cmdRsvd (encode P i) = 0#4 := by
  unfold cmdRsvd encode
  ext k hk
  simp only [BitVec.getElem_extractLsb', BitVec.getLsbD_append]
  have h1 : ¬ 4 + k < 4 := by omega
  have h2 : 4 + k - 4 < 4 := by omega
  simp [hk]

/-- `LEN` of an encoded command is its count modulo `2^LEN_W`. -/
theorem cmdLen_encode (i : Instr) : cmdLen (encode P i) = i.len % 2 ^ P.lenW := by
  have : (encode P i).extractLsb' 8 P.lenW = BitVec.ofNat P.lenW i.len := by
    unfold encode
    ext k hk
    simp only [BitVec.getElem_extractLsb', BitVec.getLsbD_append]
    have h1 : ¬ 8 + k < 4 := by omega
    have h2 : ¬ 8 + k - 4 < 4 := by omega
    have h3 : 8 + k - 4 - 4 = k := by omega
    simp only [h1, h2, h3]
    simp [BitVec.getElem_eq_testBit_toNat, hk]
  rw [cmdLen, this, BitVec.toNat_ofNat]

theorem wellFormed_iff (i : Instr) : i.wellFormed P = true ↔ i.len ≤ P.lenMax := by
  unfold Instr.wellFormed
  exact decide_eq_true_iff

@[simp] theorem ofOpcode_opcode (i : Instr) (n : Nat) :
    ofOpcode (opcode i) n = some
      (match i with
        | .buildText _ => .buildText n
        | .buildFreq _ => .buildFreq n
        | .loadCodes _ => .loadCodes n
        | .encode _ => .encode n
        | .decode _ => .decode n
        | .save _ => .save n
        | .load _ => .load n) := by
  cases i <;> rfl

/-- A command that an opcode names carries that opcode and the count it was given. -/
theorem ofOpcode_some {op : BitVec 4} {n : Nat} {i : Instr} (h : ofOpcode op n = some i) :
    opcode i = op ∧ i.len = n := by
  unfold ofOpcode at h
  split at h <;> cases h <;>
    exact ⟨BitVec.eq_of_toNat_eq (by rename_i hop; rw [hop]; rfl), rfl⟩

/-- What a word that decodes says (R74). -/
theorem decode_ok {w : CmdWord P} {i : Instr} (h : decode w = .ok i) :
    cmdRsvd w = 0#4 ∧ opcode i = cmdOp w ∧ i.len = cmdLen w := by
  unfold decode at h
  split at h
  · cases h
  · rename_i hr
    split at h
    · rename_i j hj
      cases h
      exact ⟨by simpa using hr, ofOpcode_some hj⟩
    · cases h

namespace Machine

@[simp] theorem itemSymbol_carryItem (x : OutItem P) : itemSymbol (carryItem x) = x := by
  unfold itemSymbol carryItem
  ext k hk
  have : k < P.inW := by unfold Params.inW; omega
  simp only [BitVec.getElem_extractLsb', BitVec.zeroExtend, BitVec.getLsbD_setWidth, Nat.zero_add, this,
    decide_true, Bool.true_and, BitVec.getLsbD_eq_getElem hk]

@[simp] theorem itemSymbols_carry (xs : List (OutItem P)) : itemSymbols (xs.map carryItem) = xs := by
  induction xs with
  | nil => rfl
  | cons x xs ih =>
    simp only [itemSymbols, List.map_cons, itemSymbol_carryItem, List.cons.injEq, true_and] at *
    exact ih

/-- A bit survives the way out and in again, since a symbol has a bit (R6). -/
theorem itemBit_carry_bitItem (hP : P.Valid) (b : Bool) :
    itemBit (carryItem (P := P) (bitItem b)) = b := by
  have h1 : 0 < P.symW := hP.symW_pos
  have h2 : 0 < P.inW := by unfold Params.inW; omega
  simp only [itemBit, carryItem, bitItem, BitVec.zeroExtend, BitVec.getLsbD_setWidth, h1, h2, decide_true,
    Bool.true_and]
  cases b <;> rfl

theorem itemBits_carry (hP : P.Valid) (bs : Code) :
    itemBits ((bs.map bitItem).map (carryItem (P := P))) = bs := by
  induction bs with
  | nil => rfl
  | cons b bs ih =>
    simp only [itemBits, List.map_cons, itemBit_carry_bitItem hP, List.cons.injEq, true_and] at *
    exact ih

end Machine

end Sys2Proof
end

