-- ==== Sys2Proof/Laws/State.lean ====
section
/-! SUPPORT. The fields after each update of the engine, one lemma a field, so that no proof unfolds a
record update. -/

namespace Sys2Proof.Machine

variable {P : Params}

/-! ### complete: the coding state, the report and SEQ are written, the host's side is not -/

section
variable (c : Coding P) (r : Report P) (out : List (OutItem P)) (s : Engine P)

@[simp] theorem Engine.complete_coding : (s.complete c r out).coding = c := rfl
@[simp] theorem Engine.complete_report : (s.complete c r out).report = r := rfl
@[simp] theorem Engine.complete_seq :
    (s.complete c r out).seq = .run s.shown (.respond (responseWord c.mode r out.length) out) := rfl
@[simp] theorem Engine.complete_rst : (s.complete c r out).rst = s.rst := rfl
@[simp] theorem Engine.complete_cmdIn : (s.complete c r out).cmdIn = s.cmdIn := rfl
@[simp] theorem Engine.complete_itemIn : (s.complete c r out).itemIn = s.itemIn := rfl
@[simp] theorem Engine.complete_rspReady : (s.complete c r out).rspReady = s.rspReady := rfl
@[simp] theorem Engine.complete_outReady : (s.complete c r out).outReady = s.outReady := rfl
@[simp] theorem Engine.complete_rspOut : (s.complete c r out).rspOut = s.rspOut := rfl
@[simp] theorem Engine.complete_itemOut : (s.complete c r out).itemOut = s.itemOut := rfl
@[simp] theorem Engine.complete_shown : (s.complete c r out).shown = s.shown := rfl
@[simp] theorem Engine.complete_staged : (s.complete c r out).staged = out := rfl
@[simp] theorem Engine.complete_busy : (s.complete c r out).busy = true := rfl

end

/-! ### raise -/

section
variable (e : Error P) (s : Engine P)

@[simp] theorem Engine.raise_coding : (s.raise e).coding = s.coding := rfl
@[simp] theorem Engine.raise_report : (s.raise e).report = Report.failure e := rfl
@[simp] theorem Engine.raise_seq :
    (s.raise e).seq = .run s.shown (.respond (responseWord s.coding.mode (Report.failure e) 0) []) := rfl
@[simp] theorem Engine.raise_rst : (s.raise e).rst = s.rst := rfl
@[simp] theorem Engine.raise_cmdIn : (s.raise e).cmdIn = s.cmdIn := rfl
@[simp] theorem Engine.raise_itemIn : (s.raise e).itemIn = s.itemIn := rfl
@[simp] theorem Engine.raise_rspReady : (s.raise e).rspReady = s.rspReady := rfl
@[simp] theorem Engine.raise_outReady : (s.raise e).outReady = s.outReady := rfl
@[simp] theorem Engine.raise_rspOut : (s.raise e).rspOut = s.rspOut := rfl
@[simp] theorem Engine.raise_itemOut : (s.raise e).itemOut = s.itemOut := rfl
@[simp] theorem Engine.raise_shown : (s.raise e).shown = s.shown := rfl
@[simp] theorem Engine.raise_staged : (s.raise e).staged = [] := rfl

end

/-! ### the report of a success and of a failure -/

@[simp] theorem Report.success_err (p : Bool) : (Report.success (P := P) p).err = none := rfl
@[simp] theorem Report.success_errinfo (p : Bool) : (Report.success (P := P) p).errinfo = 0#P.symW := rfl
@[simp] theorem Report.success_part (p : Bool) : (Report.success (P := P) p).part = p := rfl
@[simp] theorem Report.failure_err (e : Error P) : (Report.failure e).err = some e.kind := rfl
@[simp] theorem Report.failure_errinfo (e : Error P) : (Report.failure e).errinfo = e.info := rfl
@[simp] theorem Report.failure_part (e : Error P) : (Report.failure e).part = false := rfl

/-! ### the operand, and a state with an operand -/

section
variable (w : CmdWord P) (xs : List (InItem P)) (s : Engine P)

@[simp] theorem Engine.withOperand_coding : (s.withOperand w xs).coding = s.coding := rfl
@[simp] theorem Engine.withOperand_report : (s.withOperand w xs).report = s.report := rfl
@[simp] theorem Engine.withOperand_taken : (s.withOperand w xs).taken = xs := rfl
@[simp] theorem Engine.withOperand_shown : (s.withOperand w xs).shown = s.shown := rfl
@[simp] theorem Engine.withOperand_rst : (s.withOperand w xs).rst = s.rst := rfl
@[simp] theorem Engine.withOperand_seq : (s.withOperand w xs).seq = .run s.shown (.operands w xs) := rfl

theorem Engine.withOperand_operand (len : Nat) : (s.withOperand w xs).operand len = xs.take len := rfl

end

/-! ### install and reset -/

@[simp] theorem installTree_mode (t : Node P) : (installTree t).mode = .tree := rfl
@[simp] theorem installTree_tree (t : Node P) : (installTree t).tree = some t := rfl
@[simp] theorem installTree_book (t : Node P) : (installTree t).book = derive (some t) := rfl

@[simp] theorem Engine.resetEngine_coding (s : Engine P) : s.resetEngine.coding = Coding.reset := rfl
@[simp] theorem Engine.resetEngine_report (s : Engine P) : s.resetEngine.report = Report.reset := rfl
@[simp] theorem Engine.resetEngine_seq (s : Engine P) : s.resetEngine.seq = .idle := rfl
@[simp] theorem Engine.resetEngine_rst (s : Engine P) : s.resetEngine.rst = s.rst := rfl
@[simp] theorem Engine.resetEngine_cmdIn (s : Engine P) : s.resetEngine.cmdIn = s.cmdIn := rfl
@[simp] theorem Engine.resetEngine_itemIn (s : Engine P) : s.resetEngine.itemIn = s.itemIn := rfl
@[simp] theorem Engine.resetEngine_rspReady (s : Engine P) : s.resetEngine.rspReady = s.rspReady := rfl
@[simp] theorem Engine.resetEngine_outReady (s : Engine P) : s.resetEngine.outReady = s.outReady := rfl
@[simp] theorem Engine.resetEngine_rspOut (s : Engine P) : s.resetEngine.rspOut = s.rspOut := rfl
@[simp] theorem Engine.resetEngine_itemOut (s : Engine P) : s.resetEngine.itemOut = s.itemOut := rfl

/-! ### the channel operations touch neither the coding state nor the report -/

@[simp] theorem Engine.acceptCommand_coding (s : Engine P) : s.acceptCommand.coding = s.coding := by
  unfold Engine.acceptCommand; split <;> rfl
@[simp] theorem Engine.acceptCommand_report (s : Engine P) : s.acceptCommand.report = s.report := by
  unfold Engine.acceptCommand; split <;> rfl

section
variable (h : Shown P) (w : CmdWord P) (xs : List (InItem P)) (rsp : RspWord P) (out : List (OutItem P)) (s : Engine P)

@[simp] theorem Engine.takeItem_coding : (s.takeItem h w xs).coding = s.coding := by
  unfold Engine.takeItem; split <;> rfl
@[simp] theorem Engine.takeItem_report : (s.takeItem h w xs).report = s.report := by
  unfold Engine.takeItem; split <;> rfl
@[simp] theorem Engine.moveResponse_coding : (s.moveResponse h rsp out).coding = s.coding := by
  unfold Engine.moveResponse; split <;> rfl
@[simp] theorem Engine.moveResponse_report : (s.moveResponse h rsp out).report = s.report := by
  unfold Engine.moveResponse; split <;> rfl
@[simp] theorem Engine.moveItem_coding : (s.moveItem h out).coding = s.coding := by
  unfold Engine.moveItem
  split
  · rfl
  · split <;> rfl
@[simp] theorem Engine.moveItem_report : (s.moveItem h out).report = s.report := by
  unfold Engine.moveItem
  split
  · rfl
  · split <;> rfl

theorem Engine.takeItem_nil (hs : s.itemIn = []) : s.takeItem h w xs = s := by
  simp [Engine.takeItem, hs]

theorem Engine.takeItem_cons {x : InItem P} {rest : List (InItem P)} (hs : s.itemIn = x :: rest) :
    s.takeItem h w xs = { s with itemIn := rest, seq := .run h (.operands w (xs ++ [x])) } := by
  simp [Engine.takeItem, hs]

end

theorem Engine.acceptCommand_nil (s : Engine P) (hs : s.cmdIn = []) : s.acceptCommand = s := by
  simp [Engine.acceptCommand, hs]

theorem Engine.acceptCommand_cons (s : Engine P) {w : CmdWord P} {ws : List (CmdWord P)} (hs : s.cmdIn = w :: ws) :
    s.acceptCommand = { s with cmdIn := ws, seq := .run s.current (.operands w []) } := by
  simp [Engine.acceptCommand, hs]

end Sys2Proof.Machine
end

