-- ==== Sys2Proof/Laws/Exec.lean ====
section
/-! SUPPORT. Everything `exec` and `step` can do, said once: a command ends in `complete` or in `raise`, and
a step is reset, one channel move, or a command. Proofs cite these and do not unfold the machine. -/

namespace Sys2Proof.Machine

variable {P : Params}

/-- Two next states are the same when their engines are. -/
@[simp] theorem next_inj {s t : Engine P} :
    (Host.Outcome.next ⟨P, s⟩ : Host.Outcome State Fault Refusal) = .next ⟨P, t⟩ ↔ s = t := by
  simp

@[simp] theorem finish_ok (s : Engine P) (d : Done P) :
    finish s (.ok d) = .next ⟨P, s.complete d.coding (Report.success d.part) d.out⟩ := rfl

@[simp] theorem finish_error (s : Engine P) (e : Error P) : finish s (.error e) = .next ⟨P, s.raise e⟩ := rfl

/-- `exec` is the command's function (R11) on the coding state and the operand, and its completion. -/
theorem exec_eq (i : Instr) (s : Engine P) :
    exec i ⟨P, s⟩ = finish s (commandResult i s.coding (s.operand i.len)) := by
  cases i <;> rfl

/-- The two ways a command ends. -/
theorem exec_cases {i : Instr} {s t : Engine P} (h : exec i ⟨P, s⟩ = .next ⟨P, t⟩) :
    (∃ d, commandResult i s.coding (s.operand i.len) = .ok d ∧
      t = s.complete d.coding (Report.success d.part) d.out) ∨
    (∃ e, commandResult i s.coding (s.operand i.len) = .error e ∧ t = s.raise e) := by
  rw [exec_eq] at h
  cases hr : commandResult i s.coding (s.operand i.len) with
  | ok d =>
    rw [hr, finish_ok] at h
    exact .inl ⟨d, rfl, (next_inj.mp h).symm⟩
  | error e =>
    rw [hr, finish_error] at h
    exact .inr ⟨e, rfl, (next_inj.mp h).symm⟩

theorem exec_of_ok {i : Instr} {s : Engine P} {d : Done P}
    (h : commandResult i s.coding (s.operand i.len) = .ok d) :
    exec i ⟨P, s⟩ = .next ⟨P, s.complete d.coding (Report.success d.part) d.out⟩ := by
  rw [exec_eq, h, finish_ok]

theorem exec_of_error {i : Instr} {s : Engine P} {e : Error P}
    (h : commandResult i s.coding (s.operand i.len) = .error e) : exec i ⟨P, s⟩ = .next ⟨P, s.raise e⟩ := by
  rw [exec_eq, h, finish_error]

/-- The two ways an accepted word is answered. -/
theorem runCommand_cases {w : CmdWord P} {s t : Engine P} (h : runCommand w s = .next ⟨P, t⟩) :
    (∃ i, Sys2Proof.decode w = .ok i ∧ exec i ⟨P, s⟩ = .next ⟨P, t⟩) ∨
    (∃ e, Sys2Proof.decode w = .error e ∧ t = s.raise .illegalCommand) := by
  unfold runCommand at h
  cases hd : Sys2Proof.decode w with
  | ok i =>
    rw [hd] at h
    exact .inl ⟨i, rfl, h⟩
  | error e =>
    rw [hd] at h
    exact .inr ⟨e, rfl, (next_inj.mp h).symm⟩

/-- Everything a step can do: reset, one of the four channels, or the running command. -/
theorem step_cases {s t : Engine P} (h : step ⟨P, s⟩ = .next ⟨P, t⟩) :
    (s.rst = true ∧ t = s.resetEngine) ∨
    (s.rst = false ∧
      ((s.seq = .idle ∧ t = s.acceptCommand) ∨
       (∃ g w xs, s.seq = .run g (.operands w xs) ∧ xs.length < cmdLen w ∧ t = s.takeItem g w xs) ∨
       (∃ g w xs, s.seq = .run g (.operands w xs) ∧ cmdLen w ≤ xs.length ∧ runCommand w s = .next ⟨P, t⟩) ∨
       (∃ g rsp out, s.seq = .run g (.respond rsp out) ∧ t = s.moveResponse g rsp out) ∨
       (∃ g out, s.seq = .run g (.deliver out) ∧ t = s.moveItem g out))) := by
  simp only [step] at h
  split at h
  · exact .inl ⟨‹_›, (next_inj.mp h).symm⟩
  · rename_i hr
    refine .inr ⟨by simpa using hr, ?_⟩
    split at h
    · exact .inl ⟨‹_›, (next_inj.mp h).symm⟩
    · rename_i g w xs hs
      split at h
      · exact .inr (.inl ⟨g, w, xs, hs, ‹_›, (next_inj.mp h).symm⟩)
      · exact .inr (.inr (.inl ⟨g, w, xs, hs, by omega, h⟩))
    · exact .inr (.inr (.inr (.inl ⟨_, _, _, ‹_›, (next_inj.mp h).symm⟩)))
    · exact .inr (.inr (.inr (.inr ⟨_, _, ‹_›, (next_inj.mp h).symm⟩)))

/-- Moving the response: the host's record grows by it, or nothing changes. -/
theorem Engine.moveResponse_cases (g : Shown P) (rsp : RspWord P) (out : List (OutItem P)) (s : Engine P) :
    (s.rspReady = true ∧
      s.moveResponse g rsp out = { s with rspOut := s.rspOut ++ [rsp], seq := seqAfter g out }) ∨
    (s.rspReady = false ∧ s.moveResponse g rsp out = s) := by
  unfold Engine.moveResponse
  cases s.rspReady <;> simp

/-- Moving a result item: the host's record grows by it, or nothing changes; nothing left ends the
command. -/
theorem Engine.moveItem_cases (g : Shown P) (out : List (OutItem P)) (s : Engine P) :
    (out = [] ∧ s.moveItem g out = { s with seq := .idle }) ∨
    (∃ x xs, out = x :: xs ∧ s.outReady = true ∧
      s.moveItem g out = { s with itemOut := s.itemOut ++ [x], seq := seqAfter g xs }) ∨
    (∃ x xs, out = x :: xs ∧ s.outReady = false ∧ s.moveItem g out = s) := by
  cases out with
  | nil => exact .inl ⟨rfl, rfl⟩
  | cons x xs =>
    unfold Engine.moveItem
    cases s.outReady <;> simp

/-- The commands' functions, one equation a constructor (R11). -/
@[simp] theorem commandResult_buildText (n : Nat) (c : Coding P) (xs : List (InItem P)) :
    commandResult (.buildText n) c xs = installResult (buildTextTree xs) := rfl
@[simp] theorem commandResult_buildFreq (n : Nat) (c : Coding P) (xs : List (InItem P)) :
    commandResult (.buildFreq n) c xs = installResult (buildFreqTree xs) := rfl
@[simp] theorem commandResult_loadCodes (n : Nat) (c : Coding P) (xs : List (InItem P)) :
    commandResult (.loadCodes n) c xs = loadCodesResult xs := rfl
@[simp] theorem commandResult_encode (n : Nat) (c : Coding P) (xs : List (InItem P)) :
    commandResult (.encode n) c xs = encodeResult c xs := rfl
@[simp] theorem commandResult_decode (n : Nat) (c : Coding P) (xs : List (InItem P)) :
    commandResult (.decode n) c xs = decodeResult c xs := rfl
@[simp] theorem commandResult_save (n : Nat) (c : Coding P) (xs : List (InItem P)) :
    commandResult (.save n) c xs = saveResult c := rfl
@[simp] theorem commandResult_load (n : Nat) (c : Coding P) (xs : List (InItem P)) :
    commandResult (.load n) c xs = loadResult xs := rfl

/-- What a success of a command can be (R27, R54). -/
theorem loadCodesResult_ok {xs : List (InItem P)} {d : Done P} (h : loadCodesResult xs = .ok d) :
    ∃ b, importBook xs = .ok b ∧
      d = { coding := { mode := .imported, tree := none, book := b }, out := [], part := false } := by
  unfold loadCodesResult at h
  cases hb : importBook xs with
  | ok b => rw [hb] at h; exact ⟨b, rfl, (Except.ok.inj h).symm⟩
  | error e => rw [hb] at h; cases h

theorem installResult_ok {r : Except (Error P) (Node P)} {d : Done P} (h : installResult r = .ok d) :
    ∃ t, r = .ok t ∧ d = { coding := installTree t, out := [], part := false } := by
  cases r with
  | ok t => exact ⟨t, rfl, (Except.ok.inj h).symm⟩
  | error e => cases h

theorem installResult_error {r : Except (Error P) (Node P)} {e : Error P} (h : installResult r = .error e) :
    r = .error e := by
  cases r with
  | ok t => cases h
  | error e' => exact congrArg Except.error (Except.error.inj h)

theorem encodeResult_ok {c : Coding P} {xs : List (InItem P)} {d : Done P} (h : encodeResult c xs = .ok d) :
    ∃ bits, encodeText c.book (itemSymbols xs) 0 = .ok bits ∧
      d = { coding := c, out := bits.map bitItem, part := false } := by
  unfold encodeResult at h
  cases hb : encodeText c.book (itemSymbols xs) 0 with
  | ok b => rw [hb] at h; exact ⟨b, rfl, (Except.ok.inj h).symm⟩
  | error e => rw [hb] at h; cases h

theorem decodeResult_ok {c : Coding P} {xs : List (InItem P)} {d : Done P} (h : decodeResult c xs = .ok d) :
    ∃ t text mid, c.mode = .tree ∧ c.tree = some t ∧
      walkBits t t false (itemBits xs) = .ok (text, mid) ∧
      d = { coding := c, out := text, part := mid } := by
  obtain ⟨m, tr, b⟩ := c
  cases m <;> cases tr <;> try (cases h)
  rename_i t
  simp only [decodeResult] at h
  cases hw : walkBits t t false (itemBits xs) with
  | error e => rw [hw] at h; cases h
  | ok p => rw [hw] at h; exact ⟨t, p.1, p.2, rfl, rfl, hw, (Except.ok.inj h).symm⟩

/-- DECODE's two outcomes by MODE (R156). -/
theorem decodeResult_no_tree {c : Coding P} (xs : List (InItem P)) (h : c.mode ≠ .tree) :
    decodeResult c xs = .error .decodePrecondition := by
  obtain ⟨m, tr, b⟩ := c
  cases m <;> first | rfl | exact absurd rfl h

theorem decodeResult_tree {c : Coding P} {t : Node P} (xs : List (InItem P)) (hm : c.mode = .tree)
    (ht : c.tree = some t) :
    decodeResult c xs =
      match walkBits t t false (itemBits xs) with
      | .ok (text, mid) => .ok { coding := c, out := text, part := mid }
      | .error e => .error e := by
  obtain ⟨m, tr, b⟩ := c
  cases hm
  cases ht
  rfl

theorem saveResult_ok {c : Coding P} {d : Done P} (h : saveResult c = .ok d) :
    (savedString c).length ≤ P.lenMax ∧ d = { coding := c, out := savedString c, part := false } := by
  unfold saveResult at h
  split at h
  · cases h
  · exact ⟨by omega, (Except.ok.inj h).symm⟩

theorem saveResult_of_le {c : Coding P} (h : (savedString c).length ≤ P.lenMax) :
    saveResult c = .ok { coding := c, out := savedString c, part := false } := by
  simp only [saveResult, Nat.not_lt.mpr h, if_false]

/-- Everything a successful LOAD can be (R185). -/
theorem loadResult_ok {xs : List (InItem P)} {d : Done P} (h : loadResult xs = .ok d) :
    (xs = [] ∧ d = { coding := { mode := .empty, tree := none, book := [] }, out := [], part := false }) ∨
    (xs ≠ [] ∧ ∃ t, parse (itemSymbols xs) = .ok (t, []) ∧ (leafSymbols t).Nodup ∧
      d = { coding := installTree t, out := [], part := false }) := by
  unfold loadResult at h
  split at h
  · exact .inl ⟨‹_›, (Except.ok.inj h).symm⟩
  · rename_i hx
    refine .inr ⟨hx, ?_⟩
    cases hp : parse (itemSymbols xs) with
    | error e => rw [hp] at h; cases h
    | ok p =>
      obtain ⟨t, rest⟩ := p
      rw [hp] at h
      simp only at h
      split at h
      · cases h
      · rename_i hr
        split at h
        · cases h
        · rename_i hn
          exact ⟨t, by simpa using hr, by simpa using hn, (Except.ok.inj h).symm⟩

end Sys2Proof.Machine
end

