-- ==== Sys2Proof/Laws/PerInstr.lean ====
section
/-! SUPPORT. Per-instruction statements about the syntax: the fields of each command's word (30_encoding
rules R70, R72). -/

namespace Sys2Proof.Laws

/-- The word of a command, for any parameters: its opcode in [3:0], zeros in [7:4], and, when well formed, its
`LEN` above. -/
def EncodedFields.Statement (i : Instr) : Prop :=
  ∀ P : Params, cmdOp (encode P i) = opcode i ∧ cmdRsvd (encode P i) = 0#4 ∧
    (i.wellFormed P = true → cmdLen (encode P i) = i.len)

theorem EncodedFields.all (i : Instr) : EncodedFields.Statement i := by
  refine fun P => ⟨cmdOp_encode i, cmdRsvd_encode i, fun h => ?_⟩
  rw [wellFormed_iff] at h
  rw [cmdLen_encode]
  exact Nat.mod_eq_of_lt (by have := P.lenMax_succ; omega)

theorem EncodedFields.buildText (len : Nat) : EncodedFields.Statement (.buildText len) :=
  EncodedFields.all _
theorem EncodedFields.buildFreq (len : Nat) : EncodedFields.Statement (.buildFreq len) :=
  EncodedFields.all _
theorem EncodedFields.loadCodes (len : Nat) : EncodedFields.Statement (.loadCodes len) :=
  EncodedFields.all _
theorem EncodedFields.encode (len : Nat) : EncodedFields.Statement (.encode len) :=
  EncodedFields.all _
theorem EncodedFields.decode (len : Nat) : EncodedFields.Statement (.decode len) :=
  EncodedFields.all _
theorem EncodedFields.save (len : Nat) : EncodedFields.Statement (.save len) :=
  EncodedFields.all _
theorem EncodedFields.load (len : Nat) : EncodedFields.Statement (.load len) :=
  EncodedFields.all _

end Sys2Proof.Laws
end

