-- ==== Sys2Proof/Laws/Serializer.lean ====
section
/-! SUPPORT. SER and PARSE (43_serializer rules R180, R187). -/

namespace Sys2Proof.Machine

variable {P : Params}

theorem serNode_ne_nil (t : Node P) : serNode t ≠ [] := by
  cases t <;> simp [serNode]

@[simp] theorem parseNode_nil (fuel : Nat) :
    parseNode (P := P) fuel [] = .error .malformedTreeData := by
  cases fuel <;> rfl

@[simp] theorem parseNode_leaf (fuel : Nat) (s : Symbol P) (rest : List (Symbol P)) :
    parseNode (fuel + 1) (P.markLeaf :: s :: rest) = .ok (.leaf s 0, rest) := by
  simp [parseNode]

theorem parseNode_internal (hP : P.Valid) (fuel : Nat) (rest : List (Symbol P)) :
    parseNode (fuel + 1) (P.markInternal :: rest) =
      (parseNode fuel rest).bind (fun p =>
        (parseNode fuel p.2).map (fun q => (.internal 0 p.1 q.1, q.2))) := by
  simp only [parseNode, hP.marks_ne, if_false, if_true]
  cases parseNode fuel rest with
  | error e => rfl
  | ok p =>
    simp only [Except.bind]
    cases parseNode fuel p.2 <;> rfl

/-- What a success of PARSE says: the characters begin with the serialization of the node, whose weights
are all 0 (R187, R188). -/
theorem parseNode_ok {fuel : Nat} {data rest : List (Symbol P)} {t : Node P}
    (h : parseNode fuel data = .ok (t, rest)) : data = serNode t ++ rest ∧ zeroWeights t = t := by
  induction fuel generalizing data rest t with
  | zero => cases data <;> cases h
  | succ fuel ih =>
    cases data with
    | nil => cases h
    | cons m data =>
      simp only [parseNode] at h
      split at h
      · rename_i hm
        cases data with
        | nil => cases h
        | cons s data =>
          cases h
          exact ⟨by simp [serNode, hm], rfl⟩
      · split at h
        · rename_i hm
          cases hl : parseNode fuel data with
          | error e => rw [hl] at h; cases h
          | ok p =>
            obtain ⟨l, rest1⟩ := p
            rw [hl] at h
            cases hr : parseNode fuel rest1 with
            | error e => simp [hr] at h
            | ok q =>
              obtain ⟨r, rest2⟩ := q
              simp only [hr] at h
              cases h
              obtain ⟨h1, h2⟩ := ih hl
              obtain ⟨h3, h4⟩ := ih hr
              exact ⟨by rw [h1, h3, hm]; simp [serNode], by simp [zeroWeights, h2, h4]⟩
        · cases h

/-- PARSE fails only with MalformedTreeDataError (R189). -/
theorem parseNode_error {fuel : Nat} {data : List (Symbol P)} {e : Error P}
    (h : parseNode fuel data = .error e) : e = .malformedTreeData := by
  induction fuel generalizing data with
  | zero => cases data <;> exact (Except.error.inj h).symm
  | succ fuel ih =>
    cases data with
    | nil => exact (Except.error.inj h).symm
    | cons m data =>
      simp only [parseNode] at h
      split at h
      · cases data with
        | nil => exact (Except.error.inj h).symm
        | cons s data => cases h
      · split at h
        · cases hl : parseNode fuel data with
          | error e' => rw [hl] at h; cases h; exact ih hl
          | ok p =>
            rw [hl] at h
            cases hr : parseNode fuel p.2 with
            | error e' => simp only [hr] at h; cases h; exact ih hr
            | ok q => simp [hr] at h
        · exact (Except.error.inj h).symm

/-- LOAD fails only with MalformedTreeDataError (R185, R189). -/
theorem loadResult_error {xs : List (InItem P)} {e : Error P} (h : loadResult xs = .error e) :
    e = .malformedTreeData := by
  unfold loadResult at h
  split at h
  · cases h
  · split at h
    · rename_i hp
      cases h
      exact parseNode_error hp
    · split at h
      · exact (Except.error.inj h).symm
      · split at h
        · exact (Except.error.inj h).symm
        · cases h

/-- What SAVE writes by MODE (R181, R182). -/
theorem savedString_of_tree {c : Coding P} (h : c.mode = .tree) : savedString c = ser c.tree := by
  simp [savedString, h]

theorem savedString_of_no_tree {c : Coding P} (h : c.mode ≠ .tree) : savedString c = [] := by
  unfold savedString
  cases hm : c.mode <;> simp_all

end Sys2Proof.Machine
end

