-- ==== Sys2Proof/Tests/Slice0.lean ====
section
/-! SUPPORT. The model's own tests: the WellFormed smoke test, a word of every command written out from
30_encoding, one-step tests whose expected results are the vectors of 95_test_vectors (named V-… in each
comment), and for every obligation with hypotheses a witness that meets them all together. -/

open Sys2Proof Sys2Proof.Machine

namespace Sys2Proof.Tests

/-! ### Helpers -/

/-- The tests run at the default parameters, as the vectors of the spec do (R6). -/
abbrev D : Params := Params.default

/-- Items from numbers. -/
def items (ns : List Nat) : List (InItem D) := ns.map (BitVec.ofNat 40)

/-- The engine right after reset. -/
abbrev start : Engine D := Engine.reset

/-- The reset state with another coding state. -/
def holding (c : Coding D) : Engine D := { start with coding := c }

/-- A state that holds `c` and has taken `xs` for a command word with a matching `LEN`. -/
def taking (c : Coding D) (ns : List Nat) : Engine D :=
  Engine.withOperand (P := D) (BitVec.ofNat 40 (ns.length * 256)) (items ns) (holding c)

/-- The engine of an outcome that is a next state, at the default parameters. -/
def after : Host.Outcome State Fault Refusal → Option (Engine D)
  | .next ⟨P, s⟩ => if h : P = D then some (h ▸ s) else none
  | .fault _ => none
  | .refused _ => none

/-- The response word and the result items of a completed command. -/
def response (o : Host.Outcome State Fault Refusal) : Option (RspWord D × List (OutItem D)) :=
  match (after o).map Engine.seq with
  | some (.run _ (.respond rsp out)) => some (rsp, out)
  | some (.run _ (.operands _ _)) => none
  | some (.run _ (.deliver _)) => none
  | some .idle => none
  | none => none

/-- A property of all items of a list, decided item by item (`decide` would try all of `BitVec 40`). -/
theorem of_all {α : Type} {P : α → Prop} [DecidablePred P] {l : List α}
    (h : l.all (fun x => decide (P x)) = true) : ∀ x ∈ l, P x := by simpa using h

/-- The tree of the codes a=0, b=1. -/
def tree2 : Node D := .internal 2 (.leaf 0x61#8 1) (.leaf 0x62#8 1)

/-- MODE TREE with book a=0, b=1 (V-B1). -/
def coding2 : Coding D := installTree tree2

/-- MODE TREE with a one-leaf tree (V-B9). -/
def coding1 : Coding D := installTree (.leaf 0x61#8 5)

/-- MODE IMPORT with book a=0 (V-C7). -/
def codingI : Coding D := { mode := .imported, tree := none, book := [(0x61#8, [false])] }

/-- The tree of 40_tree_build rule R114. -/
def textbook : Coding D := installTree (.internal 100 (.leaf 0x66#8 45)
  (.internal 55 (.internal 25 (.leaf 0x63#8 12) (.leaf 0x64#8 13))
    (.internal 30 (.internal 14 (.leaf 0x61#8 5) (.leaf 0x62#8 9)) (.leaf 0x65#8 16))))

theorem coding2_inv : coding2.Inv := ⟨tree2, rfl, by unfold treeOk; decide, rfl⟩
theorem coding1_inv : coding1.Inv := ⟨.leaf 0x61#8 5, rfl, by unfold treeOk; decide, rfl⟩
theorem codingI_inv : codingI.Inv := ⟨rfl, rfl, by decide⟩

theorem report_reset_inv : (Report.reset (P := D)).Inv := ⟨fun _ => rfl, fun _ => rfl⟩

theorem holding_inv {c : Coding D} (h : c.Inv) : (holding c).Inv := ⟨h, report_reset_inv, trivial⟩

/-- The invariant of a state that takes items: `LEN` is not exceeded. -/
theorem taking_inv {c : Coding D} (h : c.Inv) (ns : List Nat)
    (hl : ns.length ≤ cmdLen (P := D) (BitVec.ofNat 40 (ns.length * 256))) : (taking c ns).Inv :=
  ⟨h, report_reset_inv, (List.length_map (as := ns) (BitVec.ofNat 40)).trans_le hl⟩

/-- A small setting that R6 admits: four symbols, and results of at most seven items. -/
abbrev small : Params :=
  { symW := 2, weightW := 3, lenW := 3, codeMax := 3, markInternal := 0#2, markLeaf := 1#2 }

theorem small_valid : small.Valid := ⟨by decide, by decide, by decide, by decide, by decide⟩

/-- A tree of three leaves, whose string of eight characters is over the seven of `small`. -/
def smallTree : Node small :=
  .internal 3 (.leaf 0#2 1) (.internal 2 (.leaf 1#2 1) (.leaf 2#2 1))

/-- The engine with the small parameters that holds it. -/
def smallEngine : Engine small := { Engine.reset (P := small) with coding := installTree smallTree }

theorem smallEngine_inv : smallEngine.Inv :=
  ⟨⟨smallTree, rfl, by unfold treeOk; decide, rfl⟩, ⟨fun _ => rfl, fun _ => rfl⟩, trivial⟩

/-! ### The parameters: defaults, a small setting, and what R6 excludes -/

/-- The column "default" of R6: `NSYM`, `LEN_MAX`, `IN_W`, `CMD_W`, and the 48 bits of R84's response. -/
theorem test_default_parameters :
    D.nsym = 256 ∧ D.lenMax = 2 ^ 32 - 1 ∧ D.inW = 40 ∧ D.cmdW = 40 ∧ D.rspW = 48 ∧ D.nodeMax = 511 := by
  decide

/-- Equal markers, `WEIGHT_W < LEN_W`, and a `CODE_MAX` under `NSYM − 1` break R6. -/
theorem test_invalid_parameters :
    ¬ Params.Valid { D with markLeaf := 0x30#8 } ∧ ¬ Params.Valid { D with weightW := 31 } ∧
    ¬ Params.Valid { D with codeMax := 254 } :=
  ⟨fun h => h.marks_ne rfl, fun h => absurd h.lenW_le (by decide), fun h => absurd h.codeMax_ge (by decide)⟩

/-- `OP` and `LEN` at `LEN_W = 3`: `LEN` is bits [10:8] of an 11-bit word (R70). -/
theorem test_decode_small :
    decode (P := small) 0b101_0000_0111#11 = .ok (.load 5) ∧
    decode (P := small) 0b101_0001_0111#11 = .error (.reservedBits 1#4) ∧
    Instr.wellFormed small (.load 8) = false := by decide

/-! ### WellFormed: `LEN` over `LEN_MAX` is refused, `LEN_MAX` is not (30_encoding R70) -/

theorem test_wellFormed_refuses_long :
    Instr.wellFormed D (.save 4294967296) = false ∧ Instr.wellFormed D (.buildText 4294967296) = false := by
  decide

theorem test_wellFormed_accepts_longest :
    Instr.wellFormed D (.save 4294967295) = true ∧ Instr.wellFormed D (.load 0) = true := by decide

/-! ### Decoding: `LEN` [39:8], `RSVD` [7:4], `OP` [3:0] written out bit by bit (R70, R72) -/

theorem test_decode_buildText :
    decode (P := D) 0b00000000_00000000_00000000_00001011_0000_0001#40 = .ok (.buildText 11) := by decide
theorem test_decode_buildFreq :
    decode (P := D) 0b00000000_00000000_00000000_00000110_0000_0010#40 = .ok (.buildFreq 6) := by decide
theorem test_decode_loadCodes :
    decode (P := D) 0b00000000_00000000_00000000_00001000_0000_0011#40 = .ok (.loadCodes 8) := by decide
theorem test_decode_encode :
    decode (P := D) 0b00000000_00000000_00000000_00000100_0000_0100#40 = .ok (.encode 4) := by decide
theorem test_decode_decode :
    decode (P := D) 0b10000000_00000000_00000000_00000001_0000_0101#40 = .ok (.decode 2147483649) := by decide
theorem test_decode_save :
    decode (P := D) 0b00000000_00000000_00000000_00000000_0000_0110#40 = .ok (.save 0) := by decide
theorem test_decode_load :
    decode (P := D) 0b11111111_11111111_11111111_11111111_0000_0111#40 = .ok (.load 4294967295) := by decide

/-- V-X1: the three illegal words, and the opcodes around the seven commands. -/
theorem test_decode_illegal :
    decode (P := D) 0x0000000209#40 = .error (.reservedOpcode 9#4) ∧
    decode (P := D) 0x0000000114#40 = .error (.reservedBits 1#4) ∧
    decode (P := D) 0x0000000000#40 = .error (.reservedOpcode 0#4) ∧
    decode (P := D) 0x0000000008#40 = .error (.reservedOpcode 8#4) ∧
    decode (P := D) 0x000000000F#40 = .error (.reservedOpcode 15#4) ∧
    decode (P := D) 0x0000000081#40 = .error (.reservedBits 8#4) := by decide

theorem test_encode_words :
    encode D (.loadCodes 8) = 0x0000000803#40 ∧ encode D (.load 5) = 0x0000000507#40 := by decide

theorem test_decodeTableWord :
    decodeTableWord 8 0x06 = some (.save 0) ∧ decodeTableWord 40 0x0000000404 = some (.encode 4) ∧
    decodeTableWord 40 0x0000000016 = none := by decide

/-- `withFetchWord` places a command that the very next step runs: `SAVE` from reset is `OK ""` (V-S1). -/
theorem test_withFetchWord :
    response (step (State.reset.withFetchWord 40 0x0000000006)) = some (0x000000000000#48, []) := by
  decide

/-! ### One step per test, at most two a command -/

/-- V-B2: `BUILD_TEXT "abracadabra"`. -/
theorem test_buildText_abracadabra :
    (after (exec (.buildText 11) ⟨D, taking Coding.reset
      [0x61, 0x62, 0x72, 0x61, 0x63, 0x61, 0x64, 0x61, 0x62, 0x72, 0x61]⟩)).map
        (fun t => (t.coding.tree, t.coding.book)) =
    some (some (.internal 11 (.leaf 0x61#8 5)
        (.internal 6 (.internal 2 (.leaf 0x63#8 1) (.leaf 0x64#8 1))
          (.internal 4 (.leaf 0x62#8 2) (.leaf 0x72#8 2)))),
      [(0x61#8, [false]), (0x62#8, [true, true, false]), (0x63#8, [true, false, false]),
       (0x64#8, [true, false, true]), (0x72#8, [true, true, true])]) := by decide

/-- V-B15, V-B1: the bits above a symbol item are ignored. -/
theorem test_buildText_upper_bits :
    (after (exec (.buildText 2) ⟨D, taking Coding.reset [0xFFFFFFFF61, 0x1234567862]⟩)).map
      (fun t => t.coding) = some coding2 := by decide

/-- V-B14: symbols are ordered unsigned. -/
theorem test_buildFreq_symbol_order :
    (after (exec (.buildFreq 2) ⟨D, taking Coding.reset [0x0000000180, 0x000000017F]⟩)).map
      (fun t => t.coding.book) = some [(0x7F#8, [false]), (0x80#8, [true])] := by decide

/-- V-B12: the sum of the counts is 2^32; the response is CapacityError in MODE TREE. -/
theorem test_buildFreq_capacity :
    response (exec (.buildFreq 2) ⟨D, taking coding2 [0xFFFFFFFF61, 0x0000000162]⟩) =
      some (0x000000000092#48, []) := by decide

/-- V-C1: the book of `LOAD_CODES (a,0) (b,10) (c,11)` and its response. -/
theorem test_loadCodes_book :
    (after (exec (.loadCodes 8) ⟨D, taking coding2 [0x161, 0, 0x262, 1, 0, 0x263, 1, 1]⟩)).map
      (fun t => (t.coding, t.staged)) =
    some ({ mode := .imported, tree := none,
            book := [(0x61#8, [false]), (0x62#8, [true, false]), (0x63#8, [true, true])] }, []) := by
  decide

/-- V-C5: a header with n = 300 before one item is CapacityError, not InvalidOperandError. -/
theorem test_loadCodes_order :
    (after (exec (.loadCodes 2) ⟨D, taking Coding.reset [0x12C61, 1]⟩)).map (fun t => t.report.err) =
      some (some .capacity) := by decide

/-- V-E1: `ENCODE "face"` with the textbook tree. -/
theorem test_encode_face :
    response (exec (.encode 4) ⟨D, taking textbook [0x66, 0x61, 0x63, 0x65]⟩) =
      some (0x0000000B0002#48,
        [0#8, 1#8, 1#8, 0#8, 0#8, 1#8, 0#8, 0#8, 1#8, 1#8, 1#8]) := by decide

/-- V-E6: `ENCODE "fax"`: no bit delivered, ERRINFO `x`. -/
theorem test_encode_unknown :
    response (exec (.encode 3) ⟨D, taking textbook [0x66, 0x61, 0x78]⟩) =
      some (0x000000007822#48, []) := by decide

/-- V-D3f: `DECODE 01001` drops a partial path. -/
theorem test_decode_partial :
    response (exec (.decode 5) ⟨D, taking textbook [0, 1, 0, 0, 1]⟩) =
      some (0x00000002000A#48, [0x66#8, 0x63#8]) := by decide

/-- V-D5: `DECODE 0` with a one-leaf tree. -/
theorem test_decode_one_leaf :
    (after (exec (.decode 1) ⟨D, taking coding1 [0]⟩)).map (fun t => (t.report.err, t.staged)) =
      some (some .malformedBitstream, []) := by decide

/-- V-S1: SAVE of the textbook tree, with two items taken and ignored (R81). -/
theorem test_save_textbook :
    response (exec (.save 2) ⟨D, taking textbook [0, 0]⟩) =
      some (0x000000110002#48,
        [0x30#8, 0x31#8, 0x66#8, 0x30#8, 0x30#8, 0x31#8, 0x63#8, 0x31#8, 0x64#8, 0x30#8, 0x30#8,
         0x31#8, 0x61#8, 0x31#8, 0x62#8, 0x31#8, 0x65#8]) := by decide

/-- V-S1: SAVE in MODE IMPORT. -/
theorem test_save_import : response (exec (.save 0) ⟨D, taking codingI []⟩) =
    some (0x000000000004#48, []) := by decide

/-- V-S8: `LOAD "01110"`: symbols that look like markers. -/
theorem test_load_marker_symbols :
    (after (exec (.load 5) ⟨D, taking Coding.reset [0x30, 0x31, 0x31, 0x31, 0x30]⟩)).map
      (fun t => t.coding.book) = some [(0x30#8, [true]), (0x31#8, [false])] := by decide

/-- V-S5: `LOAD "01a1bX"`: characters after the tree; the old tree stays. -/
theorem test_load_trailing :
    (after (exec (.load 6) ⟨D, taking coding2 [0x30, 0x31, 0x61, 0x31, 0x62, 0x58]⟩)).map
      (fun t => (t.report.err, t.coding)) = some (some .malformedTreeData, coding2) := by decide

/-! ### Witnesses: a concrete case that meets all hypotheses of an obligation, one a clause -/

theorem witness_DecodeOfEncode :
    Instr.wellFormed D (.buildText 0) = true ∧ Instr.wellFormed D (.decode D.lenMax) = true := by decide

theorem witness_DecodedWordIsItsEncoding :
    decode (P := D) 0xFFFFFFFF07#40 = .ok (.load 4294967295) ∧
    decode (P := D) 0x0000000001#40 = .ok (.buildText 0) := by
  decide

theorem witness_DecoderSplitsEveryWord :
    (cmdRsvd (P := D) 0x00000000F7#40 ≠ 0#4 ∧ (cmdOp (P := D) 0xFFFFFFFF00#40).toNat = 0 ∧
      8 ≤ (cmdOp (P := D) 0x0000000008#40).toNat) ∧
    ¬ (cmdRsvd (P := D) 0xFFFFFFFF07#40 ≠ 0#4 ∨ (cmdOp (P := D) 0xFFFFFFFF07#40).toNat = 0 ∨
      8 ≤ (cmdOp (P := D) 0xFFFFFFFF07#40).toNat) := by decide

theorem witness_ResponseTellsTheOutcome :
    ((taking textbook [0x66, 0x78]).operand (Instr.encode 2).len).length ≤ D.lenMax := by decide

theorem witness_ResetValues : State.reset.engine = Engine.reset (P := D) := rfl

theorem witness_RstTakesTheResetState : { taking coding2 [0x61] with rst := true }.rst = true := rfl

theorem witness_StepRunsTheDecodedCommand :
    let s := Engine.withOperand (P := D) 0x0000000204#40 (items [0x61, 0x62]) (holding coding2)
    s.rst = false ∧ s.seq = .run s.shown (.operands 0x0000000204#40 (items [0x61, 0x62])) ∧
      cmdLen (P := D) 0x0000000204#40 ≤ (items [0x61, 0x62]).length ∧
      decode (P := D) 0x0000000204#40 = .ok (.encode 2) := by decide

/-- With an item at the port and without; an idle engine with a word at the port and without. -/
theorem witness_StepTakesItemsBeforeItRuns :
    (let s := Engine.withOperand (P := D) 0x0000000209#40 (items [5]) start
     s.rst = false ∧ s.seq = .run s.shown (.operands 0x0000000209#40 (items [5])) ∧
      (items [5]).length < cmdLen (P := D) 0x0000000209#40 ∧ s.itemIn = [] ∧
      { s with itemIn := [7#40] }.itemIn = 7#40 :: []) ∧
    (start.rst = false ∧ start.seq = .idle ∧ start.cmdIn = [] ∧
      { start with cmdIn := [6#40] }.cmdIn = 6#40 :: []) := by decide

/-- One illegal word by each test: `RSVD`, `OP` 0, `OP` 8 or more. -/
theorem witness_ReservedWordIsIllegalCommand :
    (cmdRsvd (P := D) 0x0000000114#40 ≠ 0#4 ∧ (cmdOp (P := D) 0x0000000100#40).toNat = 0 ∧
      8 ≤ (cmdOp (P := D) 0x0000000108#40).toNat) ∧
    (let s : Engine D := { holding coding2 with cmdIn := [0x0000000108#40], itemIn := [1#40, 2#40] }
     s.rst = false ∧ s.seq = .idle ∧ s.rspReady = true ∧ s.cmdIn = 0x0000000108#40 :: [] ∧
      s.itemIn = [1#40] ++ [2#40] ∧ [1#40].length = cmdLen (P := D) 0x0000000108#40) := by decide

/-- A response held back, and a result item held back. -/
theorem witness_WordsMoveOnHandshakeInOrder :
    (let s : Engine D := { start with
       seq := .run start.current (.respond 4#48 [1#8]), rspReady := false }
     after (step ⟨D, s⟩) = some s ∧ s.rspData = some 4#48 ∧ s.rspReady = false) ∧
    (let s : Engine D := { start with
       seq := .run start.current (.deliver [1#8]), outReady := false }
     after (step ⟨D, s⟩) = some s ∧ s.outData = some 1#8 ∧ s.outReady = false) ∧
    (let s := Engine.withOperand (P := D) 0x0000000106#40 [] start
     after (step ⟨D, s⟩) = some s ∧ s.inReady = true) := by decide

/-- An item that is taken, and a command that completes. -/
theorem witness_StateChangesWhenResponseBecomesValid :
    (taking Coding.reset [0x61]).rst = false ∧
    (let s := Engine.withOperand (P := D) 0x0000000101#40 (items [0x61]) start
     s.rst = false ∧
      (after (step ⟨D, s⟩)).any (fun t => decide (t.coding ≠ s.coding) && decide (t.report = s.report)) =
        true) ∧
    (let s := Engine.withOperand (P := D) 0x0000000001#40 [] start
     s.rst = false ∧ (after (step ⟨D, s⟩)).any (fun t => decide (t.report ≠ s.report)) = true) := by decide

theorem witness_PinsShowTheStateBeforeWhileBusy :
    (holding coding2).seq = .idle ∧
    (let s : Engine D := { holding coding2 with cmdIn := [6#40] }
     s.rst = false ∧ (after (step ⟨D, s⟩)).any (fun t => decide (t.seq ≠ .idle)) = true) := by decide

/-- Each of the waits: idle, in reset, for an item, for `rsp_ready`, for `out_ready`. -/
theorem witness_EngineWaitsOnlyForTheHost :
    (∀ s ∈ [start, { start with rst := true, cmdIn := [6#40] },
        Engine.withOperand (P := D) 0x0000000106#40 [] start,
        { start with seq := .run start.current (.respond 4#48 []), rspReady := false },
        { start with seq := .run start.current (.deliver [1#8]), outReady := false }],
      after (step ⟨D, s⟩) = some s) := by decide

theorem witness_CommandEndsWithOneResponse :
    let s : Engine D := { holding coding2 with
      cmdIn := [0x0000000204#40, 6#40], itemIn := items [0x61, 0x62, 0x63] }
    s.rst = false ∧ s.seq = .idle ∧ s.rspReady = true ∧ s.outReady = true ∧
      s.cmdIn = 0x0000000204#40 :: [6#40] ∧ s.itemIn = items [0x61, 0x62] ++ items [0x63] ∧
      (items [0x61, 0x62]).length = cmdLen (P := D) 0x0000000204#40 := by decide

/-- An idle engine and one that runs a command, in each mode. -/
theorem witness_StepKeepsTheInvariant :
    D.Valid ∧ (holding coding2).Inv ∧ (holding codingI).Inv ∧ start.Inv ∧
    (Engine.withOperand (P := D) 0x0000000101#40 (items [0x61]) (holding coding2)).Inv ∧
    ∃ t, step ⟨D, Engine.withOperand (P := D) 0x0000000101#40 (items [0x61]) (holding coding2)⟩ =
      .next ⟨D, t⟩ :=
  ⟨Params.default_valid, holding_inv coding2_inv, holding_inv codingI_inv,
    ⟨⟨rfl, rfl⟩, report_reset_inv, trivial⟩,
    taking_inv coding2_inv [0x61] (by decide), _, rfl⟩

theorem witness_BookFitsItsMemory :
    D.Valid ∧ (holding coding2).Inv ∧ Memory.read (holding coding2).coding.book 0x61#8 = some [false] :=
  ⟨Params.default_valid, holding_inv coding2_inv, by decide⟩

theorem witness_CommandLeavesTheHostSide :
    ∃ t, exec (.buildText 1) ⟨D, taking Coding.reset [0x61]⟩ = .next ⟨D, t⟩ := ⟨_, rfl⟩

theorem witness_CodecAndSaveKeepTheCodingState :
    (∃ t, exec (.encode 1) ⟨D, taking coding2 [0x61]⟩ = .next ⟨D, t⟩) ∧
    (∃ t, exec (.decode 1) ⟨D, taking coding2 [1]⟩ = .next ⟨D, t⟩) ∧
    (∃ t, exec (.save 0) ⟨D, taking coding2 []⟩ = .next ⟨D, t⟩) := ⟨⟨_, rfl⟩, ⟨_, rfl⟩, ⟨_, rfl⟩⟩

/-- A command's error, and a reserved word. -/
theorem witness_FailedCommandKeepsTheCodingState :
    (after (runCommand 0x0000000001#40 (taking coding2 []))).any
      (fun t => decide (t.report.err ≠ none)) = true ∧
    (after (runCommand 0x0000000000#40 (taking coding2 []))).any
      (fun t => decide (t.report.err ≠ none)) = true := by decide

/-- Success, UnknownSymbolError, and a DECODE that drops a partial path. -/
theorem witness_StatusFieldsAreWrittenAndNeverRead :
    (after (exec (.save 0) ⟨D, taking coding2 []⟩)).map (fun t => t.report.err) = some none ∧
    (after (exec (.encode 1) ⟨D, taking coding2 [0x63]⟩)).map (fun t => t.report.err) =
      some (some .unknownSymbol) ∧
    (after (exec (.decode 1) ⟨D, taking textbook [1]⟩)).map (fun t => t.report.part) = some true := by
  decide

theorem witness_InstalledWeightsAreNeverRead :
    ∃ t, exec (.decode 1) ⟨D, taking coding2 [1]⟩ = .next ⟨D, t⟩ := ⟨_, rfl⟩

/-- Items that differ above their format, and code records of 0 and of 2 bits. -/
theorem witness_BitsAboveTheFormatAreIgnored :
    itemSymbols (items [0x61]) = itemSymbols (items [0xFFFFFFFF61]) ∧
    itemBits (items [0, 1]) = itemBits (items [0xFFFFFFFFFE, 3]) ∧
    recordsOk (P := D) [(0x63#40, []), (0x262#40, [1#40, 0#40])] ∧
    [(0x63#40, ([] : List (InItem D))), (0x262#40, [1#40, 0#40])].map (fun r => (r.1, itemBits r.2)) =
      [(0x63#40, ([] : List (InItem D))), (0x262#40, [3#40, 2#40])].map (fun r => (r.1, itemBits r.2)) := by
  unfold recordsOk
  decide

theorem witness_InstallingCommandsReadOnlyTheirOperand :
    (taking coding2 [0x61]).taken = (taking Coding.reset [0x61]).taken ∧
    ∃ t, exec (.buildText 1) ⟨D, taking Coding.reset [0x61]⟩ = .next ⟨D, t⟩ ∧ t.report.err = none :=
  ⟨rfl, _, rfl, rfl⟩

/-- A success and an error of each command that has both. -/
theorem witness_ModeTransitions :
    [exec (.buildText 1) ⟨D, taking codingI [0x61]⟩, exec (.buildFreq 1) ⟨D, taking codingI [0x161]⟩,
     exec (.loadCodes 0) ⟨D, taking coding2 []⟩, exec (.encode 0) ⟨D, taking coding2 []⟩,
     exec (.decode 0) ⟨D, taking coding2 []⟩, exec (.save 0) ⟨D, taking coding2 []⟩,
     exec (.load 0) ⟨D, taking coding2 []⟩, exec (.load 2) ⟨D, taking codingI [0x31, 0x61]⟩].map
      (fun o => (after o).map (fun t => (t.report.err, t.coding.mode))) =
    [some (none, .tree), some (none, .tree), some (none, .imported), some (none, .tree),
     some (none, .tree), some (none, .tree), some (none, .empty), some (none, .tree)] ∧
    [exec (.buildText 0) ⟨D, taking coding2 []⟩, exec (.buildFreq 0) ⟨D, taking coding2 []⟩,
     exec (.loadCodes 1) ⟨D, taking coding2 [0x161]⟩, exec (.encode 1) ⟨D, taking coding2 [0x63]⟩,
     exec (.decode 0) ⟨D, taking codingI []⟩, exec (.load 1) ⟨D, taking coding2 [0x30]⟩].map
      (fun o => (after o).map (fun t => decide (t.report.err = none))) =
    List.replicate 6 (some false) := by decide

/-- Each error of the table that a state of the invariant can show; SAVE's needs the small parameters. -/
theorem witness_ErrorsOfEachCommand :
    (D.Valid ∧ small.Valid ∧ smallEngine.Inv ∧
      ∃ t, exec (.save 0) ⟨small, smallEngine⟩ = .next ⟨small, t⟩ ∧ t.report.err = some .capacity) ∧
    (holding coding2).Inv ∧ (taking coding1 [0]).Inv ∧
    [exec (.buildText 0) ⟨D, holding coding2⟩, exec (.buildFreq 0) ⟨D, holding coding2⟩,
     exec (.buildFreq 1) ⟨D, taking coding2 [0x61]⟩, exec (.buildFreq 2) ⟨D, taking coding2
       [0xFFFFFFFF61, 0x162]⟩,
     exec (.loadCodes 1) ⟨D, taking coding2 [0x161]⟩, exec (.loadCodes 1) ⟨D, taking coding2 [0x10061]⟩,
     exec (.encode 1) ⟨D, taking coding2 [0x63]⟩, exec (.decode 0) ⟨D, holding codingI⟩,
     exec (.decode 1) ⟨D, taking coding1 [0]⟩, exec (.load 1) ⟨D, taking coding2 [0x30]⟩].map
      (fun o => (after o).bind (fun t => t.report.err)) =
    [some .emptyInput, some .emptyInput, some .invalidOperand, some .capacity, some .invalidOperand,
     some .capacity, some .unknownSymbol, some .decodePrecondition, some .malformedBitstream,
     some .malformedTreeData] :=
  ⟨⟨Params.default_valid, small_valid, smallEngine_inv, _, rfl, rfl⟩, holding_inv coding2_inv,
    taking_inv coding1_inv [0] (by decide), by decide⟩

theorem witness_BuildTextInstallsTheCountedTree :
    D.Valid ∧ (taking Coding.reset [0x61]).operand 1 ≠ [] ∧
    ((taking Coding.reset [0x61]).operand 1).length ≤ D.lenMax := ⟨Params.default_valid, by decide⟩

/-- The counts add up to exactly `2^32 − 1` (V-B12). -/
theorem witness_BuildFreqInstallsTheTreeOfThePairs :
    (taking Coding.reset [0xFFFFFFFE61, 0x162]).operand 2 ≠ [] ∧
    pairsOk ((taking Coding.reset [0xFFFFFFFE61, 0x162]).operand 2) ∧
    countSum ((taking Coding.reset [0xFFFFFFFE61, 0x162]).operand 2) = D.weightMax :=
  ⟨by decide, ⟨of_all (by decide), by decide⟩, by decide +kernel⟩

theorem witness_EmptyBuildIsEmptyInput :
    (taking coding2 []).operand 0 = [] ∧ (taking coding2 [0]).operand 1 ≠ [] := by decide

/-- A zero count first, and a repeat last whose counts also overflow (V-B12). -/
theorem witness_BuildFreqRefusesZeroCountsAndRepeats :
    ((taking coding2 [0x61, 0x61]).operand 2 = [] ++ 0x61#40 :: [0x61#40] ∧
      itemCount (P := D) 0x61#40 = 0) ∧
    ((taking coding2 [0x8000000061, 0x8000000062, 0x161]).operand 3 =
        [0x8000000061#40, 0x8000000062#40] ++ 0x161#40 :: [] ∧
      itemSymbol (P := D) 0x161#40 ∈ itemSymbols (P := D) [0x8000000061#40, 0x8000000062#40]) := by decide

/-- The sums `2^32 − 1` and `2^32` on the two sides of the equivalence. -/
theorem witness_BuildFreqCapacityExactly :
    (taking coding2 [0xFFFFFFFF61, 0x162]).operand 2 ≠ [] ∧
    pairsOk ((taking coding2 [0xFFFFFFFF61, 0x162]).operand 2) ∧
    countSum ((taking coding2 [0xFFFFFFFF61, 0x162]).operand 2) = D.weightMax + 1 ∧
    pairsOk ((taking coding2 [0xFFFFFFFE61, 0x162]).operand 2) ∧
    ¬ D.weightMax < countSum ((taking coding2 [0xFFFFFFFE61, 0x162]).operand 2) :=
  ⟨by decide, ⟨of_all (by decide), by decide⟩, by decide +kernel, ⟨of_all (by decide), by decide⟩,
    by decide +kernel⟩

/-- `"aba"` against the pairs (b,1) (a,2). -/
theorem witness_BuildDependsOnTheTableOnly :
    (items [0x161, 0x262]).Perm (items [0x262, 0x161]) ∧
    (items [0x61, 0x62, 0x61] ≠ [] ∧ (itemSymbols (items [0x162, 0x261])).Nodup ∧
      (∀ a, a ∈ itemSymbols (items [0x162, 0x261]) ↔ a ∈ itemSymbols (items [0x61, 0x62, 0x61])) ∧
      (∀ y ∈ items [0x162, 0x261],
        itemCount y = (itemSymbols (items [0x61, 0x62, 0x61])).count (itemSymbol y))) := by
  refine ⟨List.Perm.swap _ _ _, by decide, by decide, fun a => ?_, of_all (by decide)⟩
  have hl : itemSymbols (items [0x162, 0x261]) = [0x62#8, 0x61#8] := by decide
  have hr : itemSymbols (items [0x61, 0x62, 0x61]) = [0x61#8, 0x62#8, 0x61#8] := by decide
  rw [hl, hr]
  simp
  tauto

/-- Two nodes whose weights add up to `2^32 − 1`, and two whose weights add up to `2^32`. -/
theorem witness_MergeTakesTheTwoLeastLeftFirst :
    (([⟨0, .leaf 0x61#8 4294967294⟩, ⟨1, .leaf 0x62#8 1⟩] : List (Entry D)).map Entry.seq).Nodup ∧
    2 ≤ ([⟨0, .leaf 0x61#8 4294967294⟩, ⟨1, .leaf 0x62#8 1⟩] : List (Entry D)).length ∧
    4294967294 + 1 ≤ D.weightMax ∧ D.weightMax < 4294967295 + 1 := by decide

/-- Two leaves of equal weight in a canonical table; no turn, and the last turn. -/
theorem witness_MergeStartsInSymbolOrderAndKeepsKeysUnique :
    (Memory.wf (P := D) [(0x61#8, 1), (0x62#8, 1)] = true ∧
      leafEntries (P := D) 0 [(0x61#8, 1), (0x62#8, 1)] = [⟨0, .leaf 0x61#8 1⟩, ⟨1, .leaf 0x62#8 1⟩] ∧
      (0x61#8 : Symbol D) < 0x62#8) ∧
    (∃ pq, 0 < ([(0x61#8, 1), (0x62#8, 1)] : FreqTable D).length ∧
      mergeTimes 0 (leafEntries (P := D) 0 [(0x61#8, 1), (0x62#8, 1)]) 2 = .ok pq) ∧
    (∃ pq, 1 < ([(0x61#8, 1), (0x62#8, 1)] : FreqTable D).length ∧
      mergeTimes 1 (leafEntries (P := D) 0 [(0x61#8, 1), (0x62#8, 1)]) 2 = .ok pq) :=
  ⟨by decide, ⟨_, by decide, rfl⟩, ⟨_, by decide, rfl⟩⟩

theorem witness_BuildMergesTheLeaves :
    build (P := D) [(0x61#8, 1), (0x62#8, 1)] = .ok tree2 ∧
    build (P := D) [(0x61#8, 5)] = .ok (.leaf 0x61#8 5) := by decide

/-- `"aaaa"`, and the pair (a,5) (V-B9). -/
theorem witness_OneSymbolGivesOneLeaf :
    ((taking Coding.reset [0x61, 0x61, 0x61, 0x61]).operand 4 ≠ [] ∧
      ∀ x ∈ (taking Coding.reset [0x61, 0x61, 0x61, 0x61]).operand 4, itemSymbol x = 0x61#8) ∧
    ((taking Coding.reset [0x561]).operand 1 = [0x561#40] ∧ itemCount (P := D) 0x561#40 ≠ 0) :=
  ⟨⟨by decide, of_all (by decide)⟩, by decide⟩

theorem witness_TreeSizeBounds :
    D.Valid ∧ (leafSymbols tree2).Nodup ∧
    Memory.read (derive (P := D) (some tree2)) 0x62#8 = some [true] ∧
    (leafSymbols (P := D) (.leaf 0x61#8 5)).Nodup := ⟨Params.default_valid, by decide⟩

theorem witness_DeriveRecordsTheLeafPaths : (leafSymbols tree2).Nodup := by decide

/-- Two symbols, and a single leaf. -/
theorem witness_DerivedBookIsPrefixFree :
    ((leafSymbols tree2).Nodup ∧ Memory.read (derive (P := D) (some tree2)) 0x61#8 = some [false] ∧
      Memory.read (derive (P := D) (some tree2)) 0x62#8 = some [true] ∧ 0x61#8 ≠ 0x62#8 ∧
      2 ≤ (leafSymbols tree2).length) ∧
    ((leafSymbols (P := D) (.leaf 0x61#8 5)).Nodup ∧
      Memory.read (derive (P := D) (some (.leaf 0x61#8 5))) 0x61#8 = some [] ∧
      (leafSymbols (P := D) (.leaf 0x61#8 5)).length = 1) := by decide

/-- No record; a record of no bits before one of 255 bits, the longest (V-C2, V-C3, V-C5). -/
theorem witness_LoadCodesInstallsTheRecords :
    (recordsOk (P := D) [] ∧ (taking coding2 []).operand 0 = recordItems (P := D) []) ∧
    recordsOk (P := D) [(0x62#40, []), (0xFF61#40, List.replicate 255 1#40)] ∧
    (recordsOk (P := D) [(0x62#40, []), (0x161#40, [1#40])] ∧
      (taking coding2 [0x62, 0x161, 1]).operand 3 =
        recordItems (P := D) [(0x62#40, []), (0x161#40, [1#40])]) := by
  unfold recordsOk
  decide +kernel

/-- Too long at 256, with the other tests failing too; cut short by one; a repeat with its bits. -/
theorem witness_LoadCodesErrorsInOrder :
    recordsOk (P := D) [(0x161#40, [1#40])] ∧
    ((taking coding2 [0x161, 1, 0x10061]).operand 3 =
        recordItems (P := D) [(0x161#40, [1#40])] ++ 0x10061#40 :: [] ∧
      D.codeMax < itemCount (P := D) 0x10061#40) ∧
    ((taking coding2 [0x161, 1, 0x162]).operand 3 =
        recordItems (P := D) [(0x161#40, [1#40])] ++ 0x162#40 :: [] ∧
      itemCount (P := D) 0x162#40 ≤ D.codeMax ∧
      ([] : List (InItem D)).length < itemCount (P := D) 0x162#40) ∧
    ((taking coding2 [0x161, 1, 0x161, 0]).operand 4 =
        recordItems (P := D) [(0x161#40, [1#40])] ++ 0x161#40 :: [0#40] ∧
      itemCount (P := D) 0x161#40 ≤ D.codeMax ∧ itemCount (P := D) 0x161#40 ≤ [0#40].length ∧
      itemSymbol (P := D) 0x161#40 ∈ [(0x161#40, [1#40])].map (fun r => itemSymbol r.1)) := by
  unfold recordsOk
  decide

theorem witness_ImportLosesTheTree :
    (holding codingI).coding.mode = .imported ∧
    ∃ t, exec (.loadCodes 0) ⟨D, taking coding2 []⟩ = .next ⟨D, t⟩ ∧ t.report.err = none := ⟨rfl, _, rfl, rfl⟩

/-- A known text; an unknown symbol behind a known one. -/
theorem witness_EncodeConcatenatesTheCodes :
    (textKnown coding2.book ((taking coding2 [0x61, 0x62]).operand 2) ∧
      (textCode coding2.book ((taking coding2 [0x61, 0x62]).operand 2)).length ≤ D.lenMax) ∧
    ((taking coding2 [0x61, 0x63]).operand 2 = items [0x61] ++ 0x63#40 :: [] ∧
      textKnown coding2.book (items [0x61]) ∧
      (textCode coding2.book (items [0x61])).length ≤ D.lenMax ∧
      Memory.read coding2.book (itemSymbol (P := D) 0x63#40) = none) := by
  unfold textKnown
  decide

/-- The capacity clause, in a state off every run: a code of `LEN_MAX + 1` bits. -/
theorem witness_EncodeConcatenatesTheCodes_capacity (c : Code) (hc : c.length = D.lenMax + 1) :
    (taking { mode := .imported, tree := none, book := [(0x61#8, c)] } [0x61]).operand 1 =
        [] ++ 0x61#40 :: [] ∧
      textKnown (P := D) [(0x61#8, c)] [] ∧ (textCode (P := D) [(0x61#8, c)] []).length ≤ D.lenMax ∧
      Memory.read [(0x61#8, c)] (itemSymbol (P := D) 0x61#40) = some c ∧
      D.lenMax < (textCode (P := D) [(0x61#8, c)] []).length + c.length := by
  have h0 : (textCode (P := D) [(0x61#8, c)] []).length = 0 := rfl
  exact ⟨rfl, List.forall_mem_nil _, h0 ▸ Nat.zero_le _, rfl, by omega⟩

/-- Such a code exists. -/
theorem witness_EncodeConcatenatesTheCodes_code : ∃ c : Code, c.length = D.lenMax + 1 :=
  ⟨List.replicate (D.lenMax + 1) true, List.length_replicate⟩

/-- An empty import, and MODE EMPTY. -/
theorem witness_EncodeOfEmptyTextAndEmptyBook :
    ((taking { mode := .imported, tree := none, book := [] } [0x61]).coding.book = [] ∧
      (taking { mode := .imported, tree := none, book := [] } [0x61]).operand 1 = 0x61#40 :: []) ∧
    ((taking Coding.reset [0x61]).Inv ∧ (taking Coding.reset [0x61]).coding.mode = .empty ∧
      (taking Coding.reset [0x61]).operand 1 = 0x61#40 :: []) :=
  ⟨by decide, taking_inv (c := Coding.reset) ⟨rfl, rfl⟩ [0x61] (by decide), rfl, by decide⟩

theorem witness_DecodeNeedsATree :
    (holding Coding.reset).coding.mode ≠ .tree ∧ (holding codingI).coding.mode ≠ .tree := by decide

theorem witness_DecodeWithOneLeaf :
    (holding coding1).coding.mode = .tree ∧ (holding coding1).coding.tree = some (.leaf 0x61#8 5) ∧
    (taking coding1 []).operand 0 = [] ∧ (taking coding1 [0]).operand 1 ≠ [] := by decide

/-- `01001` with the textbook tree: paths `0` and `100`, and a rest `1` (V-D3f). -/
theorem witness_DecodeSplitsTheBitsIntoPaths :
    let l : Node D := .leaf 0x66#8 45
    let r : Node D := .internal 55 (.internal 25 (.leaf 0x63#8 12) (.leaf 0x64#8 13))
      (.internal 30 (.internal 14 (.leaf 0x61#8 5) (.leaf 0x62#8 9)) (.leaf 0x65#8 16))
    (holding textbook).coding.mode = .tree ∧
    (holding textbook).coding.tree = some (.internal 100 l r) ∧
    DecodesTo (.internal 100 l r) (itemBits (items [0, 1, 0, 0, 1])) [0x66#8, 0x63#8] [true] :=
  ⟨rfl, rfl, [[false], [true, false, false]], by decide,
    .cons ⟨by decide, 45, rfl⟩ (.cons ⟨by decide, 12, rfl⟩ .nil), 55, _, _, rfl⟩

/-- A tree of two leaves, and a tree of one. -/
theorem witness_DecodeOfEncodeIsTheText :
    D.Valid ∧
    ((taking coding2 [0x61, 0x62]).Inv ∧ (taking coding2 [0x61, 0x62]).coding.mode = .tree ∧
      (taking coding2 [0x61, 0x62]).coding.tree = some tree2 ∧
      ∃ t, exec (.encode 2) ⟨D, taking coding2 [0x61, 0x62]⟩ = .next ⟨D, t⟩ ∧ t.report.err = none) ∧
    ((taking coding1 [0x61]).Inv ∧ (taking coding1 [0x61]).coding.mode = .tree ∧
      (taking coding1 [0x61]).coding.tree = some (.leaf 0x61#8 5) ∧
      ∃ t, exec (.encode 1) ⟨D, taking coding1 [0x61]⟩ = .next ⟨D, t⟩ ∧ t.report.err = none) :=
  ⟨Params.default_valid, ⟨taking_inv coding2_inv [0x61, 0x62] (by decide), rfl, rfl, _, rfl, rfl⟩,
    taking_inv coding1_inv [0x61] (by decide), rfl, rfl, _, rfl, rfl⟩

theorem witness_SerializedLength : (leafSymbols tree2).Nodup := by decide

/-- A string that fits and none at all; one that is too long, with small parameters; and defaults where
none is too long. -/
theorem witness_SaveDeliversTheTree :
    ((holding coding2).Inv ∧ (ser (holding coding2).coding.tree).length ≤ D.lenMax) ∧
    ((holding codingI).Inv ∧ (ser (holding codingI).coding.tree).length ≤ D.lenMax) ∧
    (smallEngine.Inv ∧ small.lenMax + 1 = (ser smallEngine.coding.tree).length) ∧
    3 * D.nsym - 1 ≤ D.lenMax :=
  ⟨⟨holding_inv coding2_inv, by decide⟩, ⟨holding_inv codingI_inv, by decide⟩,
    ⟨smallEngine_inv, by decide⟩, by decide⟩

/-- Two settings of R6, so the two markers differ. -/
theorem witness_ParseInvertsSer : D.Valid ∧ small.Valid := ⟨Params.default_valid, small_valid⟩

/-- Empty data; `"01a1b"`; and `"2"`, which no tree serializes to (V-S10, V-S2, V-S4). -/
theorem witness_LoadAcceptsExactlyTheGrammar :
    D.Valid ∧ (taking coding2 []).operand 0 = [] ∧
    ((leafSymbols tree2).Nodup ∧
      itemSymbols ((taking coding2 [0x30, 0x31, 0x61, 0x31, 0x62]).operand 5) = serNode tree2) ∧
    ((taking coding2 [0x32]).operand 1 ≠ [] ∧
      ∀ t, (leafSymbols t).Nodup → itemSymbols ((taking coding2 [0x32]).operand 1) ≠ serNode t) := by
  refine ⟨Params.default_valid, by decide, by decide, by decide, fun t _ h => ?_⟩
  have hd : itemSymbols ((taking coding2 [0x32]).operand 1) = [0x32#8] := by decide
  rw [hd] at h
  cases t with
  | leaf s w => exact absurd (congrArg List.length h) (by simp [serNode])
  | internal w l r => exact absurd (congrArg List.head? h) (by simp [serNode])

/-- A tree that SAVE delivers; a load; no tree. -/
theorem witness_SaveAndLoadRoundTrip :
    D.Valid ∧
    ((holding coding2).Inv ∧ (holding coding2).coding.mode = .tree ∧
      (holding coding2).coding.tree = some tree2 ∧
      ∃ u, exec (.save 0) ⟨D, holding coding2⟩ = .next ⟨D, u⟩ ∧ u.report.err = none) ∧
    (((taking coding2 [0x31, 0x61]).operand 2).length ≤ D.lenMax ∧
      ∃ v, exec (.load 2) ⟨D, taking coding2 [0x31, 0x61]⟩ = .next ⟨D, v⟩ ∧ v.report.err = none) ∧
    ((holding codingI).coding.mode ≠ .tree ∧ (holding Coding.reset).coding.mode ≠ .tree) :=
  ⟨Params.default_valid, ⟨holding_inv coding2_inv, rfl, rfl, _, rfl, rfl⟩, ⟨by decide, _, rfl, rfl⟩,
    by decide⟩

/-- A build that fails, and one that succeeds. -/
theorem witness_BuildArenaDenotesTheTree :
    build (P := D) [(0x61#8, 4294967295), (0x62#8, 1)] = .error .capacity ∧
    build (P := D) [(0x61#8, 1), (0x62#8, 1)] = .ok tree2 := by decide

end Sys2Proof.Tests
end

section
/-! Every step has a next state (00_scope rule R11; 60_exceptions R222). -/

namespace Sys2Proof.Machine

variable {P : Params}

/-- A command ends, with its result or with its error (R11). -/
theorem exec_total (i : Instr) (s : Engine P) : ∃ t, exec i ⟨P, s⟩ = .next ⟨P, t⟩ := by
  cases hr : commandResult i s.coding (s.operand i.len) with
  | ok d => exact ⟨_, exec_of_ok hr⟩
  | error e => exact ⟨_, exec_of_error hr⟩

/-- An accepted word is answered, legal or not (R74, R222). -/
theorem runCommand_total (w : CmdWord P) (s : Engine P) : ∃ t, runCommand w s = .next ⟨P, t⟩ := by
  unfold runCommand
  cases Sys2Proof.decode w with
  | ok i => exact exec_total i s
  | error e => exact ⟨_, rfl⟩

theorem step_total (s : Engine P) : ∃ t, step ⟨P, s⟩ = .next ⟨P, t⟩ := by
  simp only [step]
  split
  · exact ⟨_, rfl⟩
  · split
    · exact ⟨_, rfl⟩
    · split
      · exact ⟨_, rfl⟩
      · exact runCommand_total _ s
    · exact ⟨_, rfl⟩
    · exact ⟨_, rfl⟩

end Sys2Proof.Machine
end

section
/-! The size of a tree with distinct leaf symbols, and of the codes derived from it (10_state rule R25;
40_tree_build R113). -/

namespace Sys2Proof.Machine

variable {P : Params}

/-- A binary tree has one node less than twice its leaves (R25). -/
theorem nodeCount_succ (t : Node P) : nodeCount t + 1 = 2 * (leafSymbols t).length := by
  induction t with
  | leaf s w => rfl
  | internal w l r ihl ihr =>
    simp only [nodeCount, leafSymbols, List.length_append]
    omega

theorem leafSymbols_length_pos (t : Node P) : 1 ≤ (leafSymbols t).length :=
  List.length_pos_of_ne_nil (leafSymbols_ne_nil t)

/-- Each level below the root adds a leaf at least (R113). -/
theorem depth_lt_leaves (t : Node P) : depth t + 1 ≤ (leafSymbols t).length := by
  induction t with
  | leaf s w => exact le_rfl
  | internal w l r ihl ihr =>
    have hl := leafSymbols_length_pos l
    have hr := leafSymbols_length_pos r
    simp only [depth, leafSymbols, List.length_append]
    omega

/-- No path is longer than the tree is deep. -/
theorem length_le_depth_of_nodeAt {t u : Node P} {p : Code} (h : nodeAt t p = some u) : p.length ≤ depth t := by
  induction t generalizing p with
  | leaf s w =>
    cases p with
    | nil => exact le_rfl
    | cons b p => cases h
  | internal w l r ihl ihr =>
    cases p with
    | nil => exact Nat.zero_le _
    | cons b p =>
      simp only [List.length_cons, depth]
      cases b with
      | false =>
        have := ihl h
        omega
      | true =>
        have := ihr h
        omega

/-- There are `NSYM` symbols (R6). -/
theorem length_le_nsym_of_nodup {xs : List (Symbol P)} (h : xs.Nodup) : xs.length ≤ P.nsym := by
  have hcard := (h.map (f := BitVec.toFin) (fun _ _ => BitVec.eq_of_toFin_eq)).length_le_card
  simpa [Params.nsym] using hcard

/-- DERIVE gives a symbol the path to its leaf, and nothing to a symbol without one (R130, R131). -/
theorem read_derive_iff {t : Node P} (hn : (leafSymbols t).Nodup) (a : Symbol P) (c : Code) :
    Memory.read (derive (some t)) a = some c ↔ ∃ w, nodeAt t c = some (.leaf a w) := by
  constructor
  · intro h
    by_cases ha : a ∈ leafSymbols t
    · obtain ⟨p, w, hp⟩ := (mem_leafSymbols_iff t a).mp ha
      have hread := walkTree_read_of_nodeAt t [] [] hn hp
      rw [derive, hread] at h
      obtain rfl : p = c := Option.some.inj h
      exact ⟨w, hp⟩
    · rw [derive, walkTree_read_of_notMem t [] [] ha] at h
      cases h
  · rintro ⟨w, hw⟩
    exact walkTree_read_of_nodeAt t [] [] hn hw

/-- A derived code is no longer than the tree is deep (R113). -/
theorem derived_code_length_le_depth {t : Node P} (hn : (leafSymbols t).Nodup) {a : Symbol P} {c : Code}
    (h : Memory.read (derive (some t)) a = some c) : c.length ≤ depth t := by
  obtain ⟨w, hw⟩ := (read_derive_iff hn a c).mp h
  exact length_le_depth_of_nodeAt hw

end Sys2Proof.Machine
end

section
/-! What the building commands install: BUILD keeps the table's leaves, makes weights add, and lets no
weight over `2^WEIGHT_W − 1` arise (10_state rule R25; 40_tree_build R102 to R118). -/

namespace Sys2Proof.Machine

variable {P : Params}

/-- A turn that succeeds turns the two nodes it takes into one, whose weight fits (R107, R118). -/
theorem mergeStep_ok {pq pq' : List (Entry P)} {n : Nat} (h2 : 2 ≤ pq.length)
    (h : mergeStep pq n = .ok pq') :
    ∃ a b rest, pq.Perm (a :: b :: rest) ∧ nodeWeight a.node + nodeWeight b.node ≤ P.weightMax ∧
      pq' = ⟨n, .internal (nodeWeight a.node + nodeWeight b.node) a.node b.node⟩ :: rest := by
  obtain ⟨a, b, _, rest, _, _, hperm, heq⟩ := mergeStep_cases n h2
  rw [heq] at h
  split at h
  · cases h
  · cases h
    exact ⟨a, b, rest, hperm, by omega, rfl⟩

/-- What PQ holds at every turn of a build from the leaves `ps`: trees that have these leaves between them,
with adding weights that fit (R25, R107). -/
def MergeInv (ps : List (Symbol P × Nat)) (pq : List (Entry P)) : Prop :=
  (pq.flatMap (fun e => leafPairs e.node)).Perm ps ∧
    ∀ e ∈ pq, weightsAdd e.node = true ∧ nodeWeight e.node ≤ P.weightMax

/-- A turn keeps the leaves and the weights, and leaves one node less. -/
theorem mergeStep_keeps_mergeInv {ps : List (Symbol P × Nat)} {pq pq' : List (Entry P)} {n : Nat}
    (hpq : MergeInv ps pq) (h2 : 2 ≤ pq.length) (h : mergeStep pq n = .ok pq') :
    MergeInv ps pq' ∧ pq'.length + 1 = pq.length := by
  obtain ⟨hleaves, hweights⟩ := hpq
  obtain ⟨a, b, rest, hperm, hsum, rfl⟩ := mergeStep_ok h2 h
  refine ⟨⟨?_, ?_⟩, by simp [hperm.length_eq]⟩
  · have := (hperm.flatMap_right (fun e => leafPairs e.node)).symm.trans hleaves
    simpa [leafPairs] using this
  · have ha := hweights a (hperm.mem_iff.mpr (by simp))
    have hb := hweights b (hperm.mem_iff.mpr (by simp))
    have hrest : ∀ e ∈ rest, weightsAdd e.node = true ∧ nodeWeight e.node ≤ P.weightMax :=
      fun e he => hweights e (hperm.mem_iff.mpr (by simp [he]))
    refine List.forall_mem_cons.mpr ⟨?_, hrest⟩
    exact ⟨by simp [weightsAdd, ha.1, hb.1], hsum⟩

/-- The same over `k` turns, with a node left for each. -/
theorem mergeTimes_keeps_mergeInv {ps : List (Symbol P × Nat)} {k n : Nat} {pq pq' : List (Entry P)}
    (hpq : MergeInv ps pq) (hk : k < pq.length) (h : mergeTimes k pq n = .ok pq') :
    MergeInv ps pq' ∧ pq'.length + k = pq.length := by
  induction k generalizing pq n with
  | zero =>
    cases h
    exact ⟨hpq, rfl⟩
  | succ k ih =>
    rw [mergeTimes_succ] at h
    cases hs : mergeStep pq n with
    | error e =>
      rw [hs] at h
      cases h
    | ok pq1 =>
      rw [hs] at h
      obtain ⟨hpq1, hlen1⟩ := mergeStep_keeps_mergeInv hpq (by omega) hs
      obtain ⟨hpq', hlen'⟩ := ih hpq1 (by omega) h
      exact ⟨hpq', by omega⟩

/-- PQ as phase 2 finds it: the leaves of FT (R105). -/
theorem leafEntries_mergeInv {ft : FreqTable P} (i : Nat) (hft : ∀ e ∈ ft, e.2 ≤ P.weightMax) :
    MergeInv ft (leafEntries i ft) := by
  have hnodes := leafEntries_nodes i ft
  constructor
  · have : (leafEntries i ft).flatMap (fun e => leafPairs e.node) = ft := by
      rw [← List.flatMap_map Entry.node leafPairs, hnodes, List.flatMap_map]
      simp [leafPairs]
    rw [this]
  · intro e he
    have hmem : e.node ∈ ft.map (fun p => Node.leaf p.1 p.2) := hnodes ▸ List.mem_map_of_mem he
    obtain ⟨p, hp, hnode⟩ := List.mem_map.mp hmem
    rw [← hnode]
    exact ⟨rfl, hft p hp⟩

/-- BUILD gives a tree of the table's leaves, with adding weights that fit (R25, R105 to R108). -/
theorem build_ok {ft : FreqTable P} {t : Node P} (hft : ∀ e ∈ ft, e.2 ≤ P.weightMax)
    (h : build ft = .ok t) :
    (leafPairs t).Perm ft ∧ weightsAdd t = true ∧ nodeWeight t ≤ P.weightMax := by
  unfold build at h
  split at h
  · rename_i e es hm
    cases h
    have hne : ft ≠ [] := by
      rintro rfl
      simp [leafEntries] at hm
    have hpos := List.length_pos_of_ne_nil hne
    obtain ⟨⟨hleaves, hweights⟩, hlen⟩ :=
      mergeTimes_keeps_mergeInv (leafEntries_mergeInv 0 hft) (by rw [leafEntries_length]; omega) hm
    rw [leafEntries_length, List.length_cons] at hlen
    obtain rfl : es = [] := List.eq_nil_of_length_eq_zero (by omega)
    exact ⟨by simpa using hleaves, hweights e (by simp)⟩
  · cases h
  · cases h

/-- A canonical memory lists no symbol twice. -/
theorem Memory.symbols_nodup {β : Type} {m : Memory P β} (hm : Memory.wf m = true) :
    (m.map Prod.fst).Nodup := by
  rw [Memory.wf_iff] at hm
  rw [List.Nodup, List.pairwise_map]
  exact hm.imp BitVec.ne_of_lt

/-- BUILD of a canonical table gives an installable tree (R25). -/
theorem build_treeOk {ft : FreqTable P} {t : Node P} (hwf : Memory.wf ft = true)
    (hft : ∀ e ∈ ft, e.2 ≤ P.weightMax) (h : build ft = .ok t) : treeOk t := by
  obtain ⟨hleaves, hadd, hfit⟩ := build_ok hft h
  refine ⟨?_, hadd, hfit⟩
  rw [leafSymbols_eq_map]
  exact (hleaves.map Prod.fst).nodup_iff.mpr (Memory.symbols_nodup hwf)

/-- A text counts each symbol at most as often as it has symbols. -/
theorem countText_le_length (text : List (Symbol P)) : ∀ e ∈ countText text [], e.2 ≤ text.length := by
  intro e he
  have hread := Memory.read_of_mem (countText_wf text [] rfl) he
  have hcount : countOf (countText text []) e.1 = e.2 := by simp [countOf, hread]
  rw [countOf_countText, countOf_nil] at hcount
  have := List.count_le_length (a := e.1) (l := text)
  omega

/-- The operand scan of BUILD_FREQ stores counts of one item each, so they fit (R79). -/
theorem fillPairs_le_weightMax {xs : List (InItem P)} {ft ft' : FreqTable P}
    (hft : ∀ e ∈ ft, e.2 ≤ P.weightMax) (h : fillPairs xs ft = .ok ft') : ∀ e ∈ ft', e.2 ≤ P.weightMax := by
  induction xs generalizing ft with
  | nil =>
    cases h
    exact hft
  | cons x xs ih =>
    simp only [fillPairs] at h
    split at h
    · cases h
    split at h
    · cases h
    refine ih (fun e he => ?_) h
    rcases Memory.mem_write he with rfl | he
    · exact itemCount_le x
    · exact hft e he

/-- BUILD_TEXT's tree is installable: a text of at most `LEN_MAX` symbols has counts that fit (R110). -/
theorem buildTextTree_treeOk (hP : P.Valid) {xs : List (InItem P)} {t : Node P}
    (hx : xs.length ≤ P.lenMax) (h : buildTextTree xs = .ok t) : treeOk t := by
  unfold buildTextTree at h
  split at h
  · cases h
  · refine build_treeOk (countText_wf _ _ rfl) (fun e he => ?_) h
    have hcount := countText_le_length _ e he
    have hmax := hP.lenMax_le
    simp only [itemSymbols, List.length_map] at hcount
    omega

/-- BUILD_FREQ's tree is installable. -/
theorem buildFreqTree_treeOk {xs : List (InItem P)} {t : Node P} (h : buildFreqTree xs = .ok t) :
    treeOk t := by
  unfold buildFreqTree at h
  split at h
  · cases h
  · split at h
    · rename_i ft hfill
      obtain ⟨-, -, -, -, -, hwf⟩ := fillPairs_ok hfill
      exact build_treeOk (hwf rfl) (fillPairs_le_weightMax (by simp) hfill) h
    · cases h

end Sys2Proof.Machine
end

section
/-! What LOAD and LOAD_CODES install, and the invariant of the coding state and the report over a command
(10_state rules R23, R28, R31, R32). -/

namespace Sys2Proof.Machine

variable {P : Params}

/-- A tree that LOAD accepts is installable: it has weight 0 throughout (R188, R190). -/
theorem loadedTree_treeOk {data rest : List (Symbol P)} {t : Node P} (hp : parse data = .ok (t, rest))
    (hn : (leafSymbols t).Nodup) : treeOk t := by
  obtain ⟨-, hzero⟩ := parseNode_ok hp
  rw [← hzero]
  exact ⟨by simpa using hn, by simp, by simp⟩

/-- A book that LOAD_CODES may set: canonical, with codes the hardware holds (R28, R136). -/
def Book.Fits (b : Book P) : Prop := Memory.wf b = true ∧ ∀ e ∈ b, e.2.length ≤ P.codeMax

/-- The loop of LOAD_CODES keeps the book within the hardware (R136). -/
theorem importRecords_fits {fuel : Nat} {xs : List (InItem P)} {b b' : Book P} (hb : Book.Fits b)
    (h : importRecords fuel xs b = .ok b') : Book.Fits b' := by
  induction fuel generalizing xs b with
  | zero =>
    cases xs with
    | nil =>
      cases h
      exact hb
    | cons x xs => cases h
  | succ fuel ih =>
    cases xs with
    | nil =>
      cases h
      exact hb
    | cons x xs =>
      obtain ⟨hwf, hlen⟩ := hb
      simp only [importRecords] at h
      split at h
      · cases h
      split at h
      · cases h
      split at h
      · cases h
      refine ih ⟨Memory.write_wf _ _ _ hwf, fun e he => ?_⟩ h
      rcases Memory.mem_write he with rfl | he
      · simp only [itemBits, List.length_map, List.length_take]
        omega
      · exact hlen e he

theorem importBook_fits {xs : List (InItem P)} {b : Book P} (h : importBook xs = .ok b) : Book.Fits b :=
  importRecords_fits ⟨rfl, by simp⟩ h

/-! ### The coding state by MODE, and the outcome of a command -/

theorem Coding.reset_inv : (Coding.reset (P := P)).Inv := ⟨rfl, rfl⟩

theorem installTree_inv {t : Node P} (ht : treeOk t) : (installTree t).Inv := ⟨t, rfl, ht, rfl⟩

theorem Report.reset_inv : (Report.reset (P := P)).Inv := ⟨fun _ => rfl, fun _ => rfl⟩

theorem Report.success_inv (part : Bool) : (Report.success (P := P) part).Inv :=
  ⟨fun _ => rfl, fun h => absurd rfl h⟩

/-- Only UnknownSymbolError has a symbol to report (R31, R214). -/
theorem Report.failure_inv (e : Error P) : (Report.failure e).Inv := by
  refine ⟨fun h => ?_, fun _ => rfl⟩
  cases e with
  | unknownSymbol s => exact absurd rfl h
  | _ => rfl

/-- What a command that succeeds leaves meets the invariant, and its result fits `OUTLEN` (R23, R54). -/
theorem commandResult_ok_inv (hP : P.Valid) {i : Instr} {c : Coding P} {xs : List (InItem P)} {d : Done P}
    (hc : c.Inv) (hx : xs.length ≤ P.lenMax) (h : commandResult i c xs = .ok d) :
    d.coding.Inv ∧ d.out.length ≤ P.lenMax := by
  cases i with
  | buildText n =>
    obtain ⟨t, ht, rfl⟩ := installResult_ok h
    exact ⟨installTree_inv (buildTextTree_treeOk hP hx ht), Nat.zero_le _⟩
  | buildFreq n =>
    obtain ⟨t, ht, rfl⟩ := installResult_ok h
    exact ⟨installTree_inv (buildFreqTree_treeOk ht), Nat.zero_le _⟩
  | loadCodes n =>
    obtain ⟨b, hb, rfl⟩ := loadCodesResult_ok h
    exact ⟨⟨rfl, importBook_fits hb⟩, Nat.zero_le _⟩
  | encode n =>
    obtain ⟨bits, hbits, rfl⟩ := encodeResult_ok h
    obtain ⟨-, -, hlen⟩ := encodeText_ok (Nat.zero_le _) hbits
    exact ⟨hc, by simpa using hlen⟩
  | decode n =>
    obtain ⟨t, text, mid, -, -, hwalk, rfl⟩ := decodeResult_ok h
    have hlen := walkBits_length hwalk
    simp only [itemBits, List.length_map] at hlen
    exact ⟨hc, hlen.trans hx⟩
  | save n =>
    obtain ⟨hlen, rfl⟩ := saveResult_ok h
    exact ⟨hc, hlen⟩
  | load n =>
    obtain ⟨-, rfl⟩ | ⟨-, t, hparse, hnodup, rfl⟩ := loadResult_ok h
    · exact ⟨Coding.reset_inv, Nat.zero_le _⟩
    · exact ⟨installTree_inv (loadedTree_treeOk hparse hnodup), Nat.zero_le _⟩

end Sys2Proof.Machine
end

section
/-! The invariant of the engine over every step (20_memory rules R52, R54, R55). -/

namespace Sys2Proof.Machine

variable {P : Params}

/-! ### The sequencer's part of the invariant, one equation a phase -/

section
variable {s : Engine P} {g : Shown P}

theorem Engine.seqInv_idle (hs : s.seq = .idle) : s.SeqInv := by
  simp only [Engine.SeqInv, hs]

theorem Engine.seqInv_operands {w : CmdWord P} {xs : List (InItem P)} (hs : s.seq = .run g (.operands w xs)) :
    s.SeqInv ↔ xs.length ≤ cmdLen w := by
  simp only [Engine.SeqInv, hs]

theorem Engine.seqInv_respond {rsp : RspWord P} {out : List (OutItem P)}
    (hs : s.seq = .run g (.respond rsp out)) :
    s.SeqInv ↔ rsp = responseWord s.coding.mode s.report out.length ∧ out.length ≤ P.lenMax ∧
      (s.report.err ≠ none → out = []) := by
  simp only [Engine.SeqInv, hs]

theorem Engine.seqInv_deliver {out : List (OutItem P)} (hs : s.seq = .run g (.deliver out)) :
    s.SeqInv ↔ out ≠ [] ∧ out.length ≤ P.lenMax ∧ s.report.err = none := by
  simp only [Engine.SeqInv, hs]

/-- After the response or an item has moved: idle, or a delivery with something left (R55). -/
theorem Engine.seqInv_of_seqAfter {out : List (OutItem P)} (hs : s.seq = seqAfter g out)
    (hlen : out.length ≤ P.lenMax) (herr : s.report.err ≠ none → out = []) : s.SeqInv := by
  cases out with
  | nil => exact Engine.seqInv_idle hs
  | cons x xs =>
    refine (Engine.seqInv_deliver hs).mpr ⟨List.cons_ne_nil x xs, hlen, ?_⟩
    by_contra h
    cases herr h

end

/-! ### The engine's operations keep the invariant -/

theorem Engine.complete_inv {c : Coding P} {r : Report P} {out : List (OutItem P)} (s : Engine P)
    (hc : c.Inv) (hr : r.Inv) (hlen : out.length ≤ P.lenMax) (herr : r.err ≠ none → out = []) :
    (s.complete c r out).Inv :=
  ⟨hc, hr, (Engine.seqInv_respond (Engine.complete_seq c r out s)).mpr ⟨rfl, hlen, herr⟩⟩

theorem Engine.raise_inv {s : Engine P} (e : Error P) (hc : s.coding.Inv) : (s.raise e).Inv :=
  Engine.complete_inv s hc (Report.failure_inv e) (Nat.zero_le _) (fun _ => rfl)

theorem Engine.reset_inv : (Engine.reset (P := P)).Inv := ⟨Coding.reset_inv, Report.reset_inv, trivial⟩

theorem Engine.resetEngine_inv (s : Engine P) : s.resetEngine.Inv :=
  ⟨Coding.reset_inv, Report.reset_inv, trivial⟩

theorem Engine.acceptCommand_inv {s : Engine P} (h : s.Inv) : s.acceptCommand.Inv := by
  cases hin : s.cmdIn with
  | nil => rwa [Engine.acceptCommand_nil s hin]
  | cons w ws =>
    obtain ⟨hc, hr, -⟩ := h
    rw [Engine.acceptCommand_cons s hin]
    exact ⟨hc, hr, Nat.zero_le _⟩

theorem Engine.takeItem_inv {s : Engine P} {g : Shown P} {w : CmdWord P} {xs : List (InItem P)}
    (h : s.Inv) (hlt : xs.length < cmdLen w) : (s.takeItem g w xs).Inv := by
  cases hin : s.itemIn with
  | nil => rwa [Engine.takeItem_nil g w xs s hin]
  | cons x rest =>
    obtain ⟨hc, hr, -⟩ := h
    rw [Engine.takeItem_cons g w xs s hin]
    refine ⟨hc, hr, (Engine.seqInv_operands rfl).mpr ?_⟩
    rw [List.length_append, List.length_singleton]
    exact hlt

theorem Engine.moveResponse_inv {s : Engine P} {g : Shown P} {rsp : RspWord P} {out : List (OutItem P)}
    (h : s.Inv) (hs : s.seq = .run g (.respond rsp out)) : (s.moveResponse g rsp out).Inv := by
  obtain ⟨-, heq⟩ | ⟨-, heq⟩ := s.moveResponse_cases g rsp out
  · obtain ⟨hc, hr, hseq⟩ := h
    obtain ⟨-, hlen, herr⟩ := (Engine.seqInv_respond hs).mp hseq
    rw [heq]
    exact ⟨hc, hr, Engine.seqInv_of_seqAfter rfl hlen herr⟩
  · rwa [heq]

theorem Engine.moveItem_inv {s : Engine P} {g : Shown P} {out : List (OutItem P)}
    (h : s.Inv) (hs : s.seq = .run g (.deliver out)) : (s.moveItem g out).Inv := by
  obtain ⟨hout, -⟩ | ⟨x, xs, hout, -, heq⟩ | ⟨x, xs, -, -, heq⟩ := s.moveItem_cases g out
  · obtain ⟨-, -, hseq⟩ := h
    obtain ⟨hne, -, -⟩ := (Engine.seqInv_deliver hs).mp hseq
    exact absurd hout hne
  · obtain ⟨hc, hr, hseq⟩ := h
    obtain ⟨-, hlen, hnone⟩ := (Engine.seqInv_deliver hs).mp hseq
    rw [hout, List.length_cons] at hlen
    rw [heq]
    exact ⟨hc, hr, Engine.seqInv_of_seqAfter rfl (by omega) (fun herr => absurd hnone herr)⟩
  · rwa [heq]

/-- A command of at most `LEN_MAX` operand items keeps the invariant, whatever its outcome. -/
theorem exec_inv (hP : P.Valid) {i : Instr} {s t : Engine P} (hc : s.coding.Inv)
    (hlen : (s.operand i.len).length ≤ P.lenMax) (h : exec i ⟨P, s⟩ = .next ⟨P, t⟩) : t.Inv := by
  obtain ⟨d, hd, rfl⟩ | ⟨e, -, rfl⟩ := exec_cases h
  · obtain ⟨hcoding, hout⟩ := commandResult_ok_inv hP hc hlen hd
    exact Engine.complete_inv s hcoding (Report.success_inv d.part) hout (fun herr => absurd rfl herr)
  · exact Engine.raise_inv e hc

theorem Engine.operand_length_le (len : Nat) (s : Engine P) : (s.operand len).length ≤ len :=
  List.length_take_le len s.taken

theorem runCommand_inv (hP : P.Valid) {w : CmdWord P} {s t : Engine P} (hc : s.coding.Inv)
    (h : runCommand w s = .next ⟨P, t⟩) : t.Inv := by
  obtain ⟨i, hdec, hexec⟩ | ⟨e, -, rfl⟩ := runCommand_cases h
  · obtain ⟨-, -, hlen⟩ := decode_ok hdec
    have hop : (s.operand i.len).length ≤ P.lenMax :=
      (Engine.operand_length_le i.len s).trans (hlen ▸ cmdLen_le w)
    exact exec_inv hP hc hop hexec
  · exact Engine.raise_inv _ hc

theorem step_inv (hP : P.Valid) {s t : Engine P} (hs : s.Inv) (h : step ⟨P, s⟩ = .next ⟨P, t⟩) : t.Inv := by
  obtain ⟨-, rfl⟩ | ⟨-, ⟨-, rfl⟩ | ⟨g, w, xs, -, hlt, rfl⟩ | ⟨g, w, xs, -, -, hrun⟩ |
    ⟨g, rsp, out, hseq, rfl⟩ | ⟨g, out, hseq, rfl⟩⟩ := step_cases h
  · exact Engine.resetEngine_inv s
  · exact Engine.acceptCommand_inv hs
  · exact Engine.takeItem_inv hs hlt
  · obtain ⟨hc, -, -⟩ := hs
    exact runCommand_inv hP hc hrun
  · exact Engine.moveResponse_inv hs hseq
  · exact Engine.moveItem_inv hs hseq

end Sys2Proof.Machine
end

section
/-! The statements about the scope of the machine (00_scope). -/

open Sys2Proof Sys2Proof.Machine

/-- Settles O13: reset and the channels answer a state outright, and a command always ends. -/
theorem everyStepHasANextState : Obligations.EveryStepHasANextState := by
  intro P s
  exact step_total s

/-- Settles O41, from the tree's shape: a level adds a leaf, and codes are paths. -/
theorem treeSizeBounds : Obligations.TreeSizeBounds := by
  intro P t hP hn
  have hpos := leafSymbols_length_pos t
  have hnsym := length_le_nsym_of_nodup hn
  have hcount := nodeCount_succ t
  have hdepth := depth_lt_leaves t
  have hcodeMax := hP.codeMax_ge
  refine ⟨hpos, hnsym, by omega, by unfold Params.nodeMax; omega, hdepth, fun a c hc => ?_⟩
  have hcode := derived_code_length_le_depth hn hc
  omega

/-- Settles O19: a step is a reset, a word moved or a command run, and each keeps the invariant. -/
theorem stepKeepsTheInvariant : Obligations.StepKeepsTheInvariant := by
  intro P s t hP hs h
  exact step_inv hP hs h

/-- Settles O20: the default reset state is the reset engine at the default parameters. -/
theorem resetMeetsTheInvariant : Obligations.ResetMeetsTheInvariant :=
  ⟨Params.default_valid, fun _ => Engine.reset_inv, Engine.reset_inv⟩

end

section
/-! The arena of node slots and the trees it denotes (10_state rules R34, R36; 20_memory R51). -/

namespace Sys2Proof.Machine

variable {P : Params}

/-! ### The node an index stands for -/

theorem arenaNode_leaf {a : Arena P} {i w : Nat} {s : Symbol P} (fuel : Nat)
    (h : a[i]? = some (.leaf s w)) : arenaNode (fuel + 1) a i = some (.leaf s w) := by
  simp [arenaNode, h]

theorem arenaNode_internal {a : Arena P} {i w l r fuel : Nat} {x y : Node P}
    (h : a[i]? = some (.internal w l r)) (hx : arenaNode fuel a l = some x)
    (hy : arenaNode fuel a r = some y) : arenaNode (fuel + 1) a i = some (.internal w x y) := by
  simp [arenaNode, h, hx, hy]

/-- Only a filled slot stands for a node: a leaf, or an Internal whose children's slots do. -/
theorem arenaNode_succ_cases {a : Arena P} {i fuel : Nat} {t : Node P}
    (h : arenaNode (fuel + 1) a i = some t) :
    (∃ s w, a[i]? = some (.leaf s w) ∧ t = .leaf s w) ∨
    (∃ w l r x y, a[i]? = some (.internal w l r) ∧ arenaNode fuel a l = some x ∧
      arenaNode fuel a r = some y ∧ t = .internal w x y) := by
  simp only [arenaNode] at h
  split at h
  · cases h
  · rename_i s w hi
    exact .inl ⟨s, w, hi, (Option.some.inj h).symm⟩
  · rename_i w l r hi
    split at h
    · rename_i x y hx hy
      exact .inr ⟨w, l, r, x, y, hi, hx, hy, (Option.some.inj h).symm⟩
    · cases h
    · cases h

/-- A slot stays where it is when more slots come behind it. -/
theorem Arena.getElem?_of_prefix {a b : Arena P} {i : Nat} {u : Slot P} (hab : a <+: b) (hi : a[i]? = some u) :
    b[i]? = some u := by
  obtain ⟨c, rfl⟩ := hab
  obtain ⟨hlt, -⟩ := List.getElem?_eq_some_iff.mp hi
  rwa [List.getElem?_append_left hlt]

/-- More slots behind, and more levels to follow, leave a node as it is. -/
theorem arenaNode_mono {a b : Arena P} {i fuel fuel' : Nat} {t : Node P} (hab : a <+: b)
    (hf : fuel ≤ fuel') (h : arenaNode fuel a i = some t) : arenaNode fuel' b i = some t := by
  induction fuel generalizing i fuel' t with
  | zero => cases h
  | succ fuel ih =>
    obtain ⟨fuel', rfl⟩ : ∃ k, fuel' = k + 1 := ⟨fuel' - 1, by omega⟩
    obtain ⟨s, w, hi, rfl⟩ | ⟨w, l, r, x, y, hi, hx, hy, rfl⟩ := arenaNode_succ_cases h
    · exact arenaNode_leaf fuel' (Arena.getElem?_of_prefix hab hi)
    · exact arenaNode_internal (Arena.getElem?_of_prefix hab hi) (ih (by omega) hx) (ih (by omega) hy)

/-! ### LOAD's preorder slots (R36) -/

theorem preorderSlots_length (t : Node P) (base : Nat) : (preorderSlots t base).length = nodeCount t := by
  induction t generalizing base with
  | leaf s w => rfl
  | internal w l r ihl ihr => simp [preorderSlots, nodeCount, ihl, ihr]

/-- Wherever the preorder slots of a tree lie, their first one denotes the tree. -/
theorem arenaNode_of_preorderSlots {t : Node P} {a : Arena P} {base fuel : Nat} (hf : nodeCount t ≤ fuel)
    (ha : preorderSlots t base <+: a.drop base) : arenaNode fuel a base = some t := by
  induction t generalizing base fuel with
  | leaf s w =>
    obtain ⟨fuel, rfl⟩ : ∃ k, fuel = k + 1 := ⟨fuel - 1, by simp only [nodeCount] at hf; omega⟩
    have hslot : (a.drop base)[0]? = some (.leaf s w) := Arena.getElem?_of_prefix ha rfl
    exact arenaNode_leaf fuel (by simpa using hslot)
  | internal w l r ihl ihr =>
    simp only [nodeCount] at hf
    obtain ⟨fuel, rfl⟩ : ∃ k, fuel = k + 1 := ⟨fuel - 1, by omega⟩
    have hslot := Arena.getElem?_of_prefix (i := 0) ha rfl
    have hchildren := ha.drop 1
    simp only [preorderSlots, List.drop_succ_cons, List.drop_zero, List.drop_drop] at hchildren
    have hright := hchildren.drop (preorderSlots l (base + 1)).length
    rw [List.drop_left, List.drop_drop] at hright
    exact arenaNode_internal (by simpa using hslot)
      (ihl (by omega) ((List.prefix_append _ _).trans hchildren)) (ihr (by omega) hright)

/-! ### PQ holds keys whose index stands for the entry's node (R34, R36) -/

/-- What the hardware PQ holds of an entry (R34). -/
def Entry.key (e : Entry P) : Key := { weight := nodeWeight e.node, seq := e.seq }

theorem Entry.key_before (a b : Entry P) : a.key.before b.key = a.before b := rfl

theorem popKey_map_key (pq : List (Entry P)) :
    popKey (pq.map Entry.key) = (popMin pq).map (fun p => (p.1.key, p.2.map Entry.key)) := by
  induction pq with
  | nil => rfl
  | cons e es ih =>
    simp only [List.map_cons, popKey, popMin, ih]
    cases popMin es with
    | none => rfl
    | some p =>
      simp only [Option.map_some, Entry.key_before]
      by_cases hb : e.before p.1 = true <;> simp [hb]

/-- Every entry's sequence number is the index of a slot that stands for the entry's node (R36). -/
def Arena.Denotes (a : Arena P) (pq : List (Entry P)) : Prop :=
  ∀ e ∈ pq, arenaNode a.length a e.seq = some e.node

/-- The slot a turn fills stands for the merged node, and the other nodes stay. -/
theorem Arena.Denotes.merge {a : Arena P} {pq rest : List (Entry P)} {x y : Entry P} (h : Arena.Denotes a pq)
    (hperm : pq.Perm (x :: y :: rest)) (w : Nat) :
    Arena.Denotes (a ++ [.internal w x.seq y.seq]) (⟨a.length, .internal w x.node y.node⟩ :: rest) := by
  have hold : ∀ e ∈ x :: y :: rest,
      arenaNode a.length (a ++ [.internal w x.seq y.seq]) e.seq = some e.node := fun e he =>
    arenaNode_mono (List.prefix_append _ _) le_rfl (h e (hperm.mem_iff.mpr he))
  unfold Arena.Denotes
  rw [List.length_append, List.length_singleton]
  refine List.forall_mem_cons.mpr ⟨?_, fun e he => ?_⟩
  · exact arenaNode_internal List.getElem?_concat_length (hold x (by simp)) (hold y (by simp))
  · exact arenaNode_mono (List.prefix_refl _) (Nat.le_succ _) (hold e (by simp [he]))

/-! ### The merge on the arena follows the merge on trees (R107) -/

/-- One turn on the arena, beside `mergeStep_cases`. -/
theorem arenaTimes_succ {pq pq1 pq2 : List (Entry P)} {x y : Entry P} (k : Nat) (a : Arena P)
    (hx : popMin pq = some (x, pq1)) (hy : popMin pq1 = some (y, pq2)) :
    arenaTimes (k + 1) (pq.map Entry.key) a =
      if P.weightMax < nodeWeight x.node + nodeWeight y.node then .error .capacity
      else arenaTimes k
        ((⟨a.length, .internal (nodeWeight x.node + nodeWeight y.node) x.node y.node⟩ :: pq2).map Entry.key)
        (a ++ [.internal (nodeWeight x.node + nodeWeight y.node) x.seq y.seq]) := by
  simp only [arenaTimes, popKey_map_key, hx, hy, Option.map_some]
  rfl

/-- An outcome of the merge on trees, and the outcome on the arena, with `n` slots filled, that refines it. -/
inductive ArenaRefines (n : Nat) :
    Except (Error P) (List (Entry P)) → Except (Error P) (List Key × Arena P) → Prop where
  /-- The same error. -/
  | error (e : Error P) : ArenaRefines n (.error e) (.error e)
  /-- The keys of the same entries, whose indices stand for their nodes. -/
  | ok (pq : List (Entry P)) (a : Arena P) (len : a.length = n) (den : Arena.Denotes a pq) :
      ArenaRefines n (.ok pq) (.ok (pq.map Entry.key, a))

theorem ArenaRefines.of_error {n : Nat} {e : Error P} {r : Except (Error P) (List Key × Arena P)}
    (h : ArenaRefines n (.error e) r) : r = .error e := by
  cases h
  rfl

theorem ArenaRefines.of_ok {n : Nat} {pq : List (Entry P)} {r : Except (Error P) (List Key × Arena P)}
    (h : ArenaRefines n (.ok pq) r) :
    ∃ a, r = .ok (pq.map Entry.key, a) ∧ a.length = n ∧ Arena.Denotes a pq := by
  cases h with
  | ok _ a len den => exact ⟨a, rfl, len, den⟩

/-- `k` turns on the arena refine `k` turns on trees. -/
theorem arenaTimes_refines {k : Nat} {pq : List (Entry P)} {a : Arena P} (hk : k < pq.length)
    (h : Arena.Denotes a pq) :
    ArenaRefines (a.length + k) (mergeTimes k pq a.length) (arenaTimes k (pq.map Entry.key) a) := by
  induction k generalizing pq a with
  | zero => exact .ok pq a rfl h
  | succ k ih =>
    obtain ⟨x, y, pq1, rest, hx, hy, hperm, hstep⟩ := mergeStep_cases a.length (show 2 ≤ pq.length by omega)
    rw [mergeTimes_succ, hstep, arenaTimes_succ k a hx hy]
    by_cases hcap : P.weightMax < nodeWeight x.node + nodeWeight y.node
    · rw [if_pos hcap, if_pos hcap]
      exact .error _
    · rw [if_neg hcap, if_neg hcap]
      have hlen := hperm.length_eq
      simp only [List.length_cons] at hlen
      have := ih (by simp only [List.length_cons]; omega)
        (h.merge hperm (nodeWeight x.node + nodeWeight y.node))
      rw [List.length_append, List.length_singleton, Nat.add_right_comm] at this
      exact this

/-- The node put into PQ by the last turn stands first and carries the last sequence number (R105). -/
theorem mergeTimes_head_seq {k n : Nat} {pq es : List (Entry P)} {e : Entry P} (hk : k + 1 < pq.length)
    (h : mergeTimes (k + 1) pq n = .ok (e :: es)) : e.seq = n + k := by
  rw [mergeTimes_succ] at h
  cases hs : mergeStep pq n with
  | error e' =>
    rw [hs] at h
    cases h
  | ok pq' =>
    rw [hs] at h
    obtain ⟨_, _, rest, hperm, -, rfl⟩ := mergeStep_ok (by omega) hs
    cases k with
    | zero =>
      cases h
      rfl
    | succ k =>
      have hlen := hperm.length_eq
      simp only [List.length_cons] at hlen
      have := mergeTimes_head_seq (by simp only [List.length_cons]; omega) h
      omega

/-! ### BUILD -/

@[simp] theorem leafSlots_length (ft : FreqTable P) : (leafSlots ft).length = ft.length := List.length_map _

theorem leafKeys_eq_map_key (i : Nat) (ft : FreqTable P) : leafKeys i ft = (leafEntries i ft).map Entry.key := by
  induction ft generalizing i with
  | nil => rfl
  | cons e ft ih => simp [leafKeys, leafEntries, ih, Entry.key, nodeWeight]

/-- PQ's leaves are the table's, each with its place as its sequence number (R105). -/
theorem mem_leafEntries {i : Nat} {ft : FreqTable P} {e : Entry P} (he : e ∈ leafEntries i ft) :
    ∃ j p, ft[j]? = some p ∧ e = ⟨i + j, .leaf p.1 p.2⟩ := by
  induction ft generalizing i with
  | nil => cases he
  | cons p ft ih =>
    rcases List.mem_cons.mp he with rfl | he
    · exact ⟨0, p, rfl, rfl⟩
    · obtain ⟨j, q, hq, rfl⟩ := ih he
      exact ⟨j + 1, q, hq, by rw [Nat.add_right_comm, Nat.add_assoc]⟩

theorem leafSlots_denotes (ft : FreqTable P) : Arena.Denotes (leafSlots ft) (leafEntries 0 ft) := by
  intro e he
  obtain ⟨j, p, hp, rfl⟩ := mem_leafEntries he
  obtain ⟨hlt, -⟩ := List.getElem?_eq_some_iff.mp hp
  obtain ⟨n, hn⟩ : ∃ n, (leafSlots ft).length = n + 1 :=
    ⟨ft.length - 1, by rw [leafSlots_length]; omega⟩
  rw [hn]
  exact arenaNode_leaf n (by simp [leafSlots, hp])

/-- BUILD's merge on the arena refines its merge on trees, and fills `2n − 1` slots (R36). -/
theorem buildArena_refines {ft : FreqTable P} (hne : ft ≠ []) :
    ArenaRefines (2 * ft.length - 1) (mergeTimes (ft.length - 1) (leafEntries 0 ft) ft.length)
      (arenaTimes (ft.length - 1) (leafKeys 0 ft) (leafSlots ft)) := by
  have hpos := List.length_pos_of_ne_nil hne
  have h := arenaTimes_refines (k := ft.length - 1) (by rw [leafEntries_length]; omega) (leafSlots_denotes ft)
  rw [leafSlots_length, show ft.length + (ft.length - 1) = 2 * ft.length - 1 by omega] at h
  rwa [leafKeys_eq_map_key]

/-- The node left by BUILD's merge has the last sequence number, `2n − 2` (R36). -/
theorem build_root_seq {ft : FreqTable P} {e : Entry P} {es : List (Entry P)}
    (h : mergeTimes (ft.length - 1) (leafEntries 0 ft) ft.length = .ok (e :: es)) :
    e.seq = 2 * ft.length - 2 := by
  match ft with
  | [] => cases h
  | [p] => cases h; rfl
  | p :: q :: ft =>
    have := mergeTimes_head_seq (by simp) h
    simp only [List.length_cons] at this ⊢
    omega

/-- BUILD on the arena fails as BUILD on trees does (R36, R118). -/
theorem buildArena_of_error {ft : FreqTable P} {e : Error P} (h : build ft = .error e) :
    buildArena ft = .error e := by
  by_cases hne : ft = []
  · subst hne
    cases h
    rfl
  have href := buildArena_refines hne
  unfold build at h
  unfold buildArena
  cases hm : mergeTimes (ft.length - 1) (leafEntries 0 ft) ft.length with
  | error e' =>
    rw [hm] at h href
    cases h
    rw [href.of_error]
  | ok pq =>
    rw [hm] at h href
    obtain ⟨a, ha, -, -⟩ := href.of_ok
    cases pq with
    | nil =>
      cases h
      rw [ha]
      rfl
    | cons e' es => cases h

/-- BUILD on the arena fills `2n − 1` slots, the last of which stands for the tree BUILD gives (R36). -/
theorem buildArena_of_ok {ft : FreqTable P} {t : Node P} (h : build ft = .ok t) :
    ∃ a, buildArena ft = .ok (a, 2 * ft.length - 2) ∧ a.length = 2 * ft.length - 1 ∧
      arenaNode a.length a (2 * ft.length - 2) = some t := by
  have hne : ft ≠ [] := by
    rintro rfl
    cases h
  have href := buildArena_refines hne
  unfold build at h
  unfold buildArena
  cases hm : mergeTimes (ft.length - 1) (leafEntries 0 ft) ft.length with
  | error e =>
    rw [hm] at h
    cases h
  | ok pq =>
    rw [hm] at h href
    obtain ⟨a, ha, hlen, hden⟩ := href.of_ok
    cases pq with
    | nil => cases h
    | cons e es =>
      cases h
      rw [← build_root_seq hm, ha]
      exact ⟨a, rfl, hlen, hden e List.mem_cons_self⟩

end Sys2Proof.Machine
end

section
/-! The errors each command can end with (60_exceptions R213), the partial flag, and the coding state a success
leaves (10_state R27, R32). -/

namespace Sys2Proof.Machine

variable {P : Params}

/-! ### The errors -/

/-- The merge fails only with CapacityError (R118). -/
theorem mergeTimes_error {k n : Nat} {pq : List (Entry P)} {e : Error P} (hk : k < pq.length)
    (h : mergeTimes k pq n = .error e) : e = .capacity := by
  induction k generalizing pq n with
  | zero => cases h
  | succ k ih =>
    obtain ⟨x, y, _, _, _, _, hperm, hstep⟩ := mergeStep_cases n (show 2 ≤ pq.length by omega)
    rw [mergeTimes_succ, hstep] at h
    by_cases hcap : P.weightMax < nodeWeight x.node + nodeWeight y.node
    · rw [if_pos hcap] at h
      exact (Except.error.inj h).symm
    · rw [if_neg hcap] at h
      have hlen := hperm.length_eq
      simp only [List.length_cons] at hlen
      exact ih (by simp only [List.length_cons]; omega) h

theorem build_error {ft : FreqTable P} {e : Error P} (h : build ft = .error e) :
    e = .emptyInput ∨ e = .capacity := by
  by_cases hne : ft = []
  · subst hne
    exact .inl (Except.error.inj h).symm
  have hpos := List.length_pos_of_ne_nil hne
  unfold build at h
  split at h
  · cases h
  · exact .inl (Except.error.inj h).symm
  · rename_i hm
    cases h
    exact .inr (mergeTimes_error (by rw [leafEntries_length]; omega) hm)

theorem buildTextTree_error {xs : List (InItem P)} {e : Error P} (h : buildTextTree xs = .error e) :
    e = .emptyInput ∨ e = .capacity := by
  unfold buildTextTree at h
  split at h
  · exact .inl (Except.error.inj h).symm
  · exact build_error h

theorem buildFreqTree_error {xs : List (InItem P)} {e : Error P} (h : buildFreqTree xs = .error e) :
    e = .emptyInput ∨ e = .invalidOperand ∨ e = .capacity := by
  unfold buildFreqTree at h
  split at h
  · exact .inl (Except.error.inj h).symm
  · split at h
    · exact (build_error h).imp id .inr
    · rename_i hfill
      cases h
      exact .inr (.inl (fillPairs_error hfill))

theorem importRecords_error {fuel : Nat} {xs : List (InItem P)} {b : Book P} {e : Error P}
    (h : importRecords fuel xs b = .error e) : e = .invalidOperand ∨ e = .capacity := by
  induction fuel generalizing xs b with
  | zero =>
    cases xs with
    | nil => cases h
    | cons x xs => exact .inl (Except.error.inj h).symm
  | succ fuel ih =>
    cases xs with
    | nil => cases h
    | cons x xs =>
      simp only [importRecords] at h
      split at h
      · exact .inr (Except.error.inj h).symm
      split at h
      · exact .inl (Except.error.inj h).symm
      split at h
      · exact .inl (Except.error.inj h).symm
      · exact ih h

theorem loadCodesResult_error {xs : List (InItem P)} {e : Error P} (h : loadCodesResult xs = .error e) :
    e = .invalidOperand ∨ e = .capacity := by
  unfold loadCodesResult at h
  split at h
  · cases h
  · rename_i hb
    cases h
    exact importRecords_error hb

theorem encodeResult_error {c : Coding P} {xs : List (InItem P)} {e : Error P}
    (h : encodeResult c xs = .error e) : encodeText c.book (itemSymbols xs) 0 = .error e := by
  unfold encodeResult at h
  split at h
  · cases h
  · rename_i hb
    cases h
    exact hb

theorem decodeResult_error {c : Coding P} {xs : List (InItem P)} {e : Error P}
    (h : decodeResult c xs = .error e) : e = .decodePrecondition ∨ e = .malformedBitstream := by
  unfold decodeResult at h
  split at h
  · split at h
    · cases h
    · rename_i hw
      cases h
      exact .inr (walkBits_error hw)
  all_goals exact .inl (Except.error.inj h).symm

theorem saveResult_error {c : Coding P} {e : Error P} (h : saveResult c = .error e) : e = .capacity := by
  unfold saveResult at h
  split at h
  · exact (Except.error.inj h).symm
  · cases h

/-- The symbol ENCODE's loop reports is one of the text without a code (R152). -/
theorem encodeText_unknownSymbol {b : Book P} {text : List (Symbol P)} {n : Nat} {a : Symbol P}
    (h : encodeText b text n = .error (.unknownSymbol a)) : a ∈ text ∧ Memory.read b a = none := by
  induction text generalizing n with
  | nil => cases h
  | cons s text ih =>
    cases hr : Memory.read b s with
    | none =>
      rw [encodeText_unknown text n hr] at h
      cases h
      exact ⟨List.mem_cons_self, hr⟩
    | some c =>
      by_cases hc : n + c.length ≤ P.lenMax
      · rw [encodeText_cons text hr hc] at h
        cases he : encodeText b text (n + c.length) with
        | ok bits => rw [he] at h; cases h
        | error e =>
          rw [he] at h
          cases h
          obtain ⟨hmem, hread⟩ := ih he
          exact ⟨List.mem_cons_of_mem s hmem, hread⟩
      · rw [encodeText_capacity text hr (Nat.lt_of_not_le hc)] at h
        cases h

/-- Only ENCODE raises UnknownSymbolError, for a symbol of its text that is absent from the book (R31, R213). -/
theorem commandResult_unknownSymbol {i : Instr} {c : Coding P} {xs : List (InItem P)} {a : Symbol P}
    (h : commandResult i c xs = .error (.unknownSymbol a)) :
    (∃ len, i = .encode len) ∧ a ∈ itemSymbols xs ∧ Memory.read c.book a = none := by
  cases i with
  | encode n => exact ⟨⟨n, rfl⟩, encodeText_unknownSymbol (encodeResult_error h)⟩
  | buildText n => simpa using buildTextTree_error (installResult_error h)
  | buildFreq n => simpa using buildFreqTree_error (installResult_error h)
  | loadCodes n => simpa using loadCodesResult_error h
  | decode n => simpa using decodeResult_error h
  | save n => simpa using saveResult_error h
  | load n => simpa using loadResult_error h

theorem Error.eq_unknownSymbol_of_kind {e : Error P} (h : e.kind = .unknownSymbol) :
    e = .unknownSymbol e.info := by
  cases e with
  | unknownSymbol s => rfl
  | _ => cases h

/-! ### What a success leaves -/

/-- Only DECODE drops a partial path (R160). -/
theorem commandResult_part {i : Instr} {c : Coding P} {xs : List (InItem P)} {d : Done P}
    (h : commandResult i c xs = .ok d) (hp : d.part = true) : ∃ len, i = .decode len := by
  cases i with
  | decode n => exact ⟨n, rfl⟩
  | buildText n => obtain ⟨t, -, rfl⟩ := installResult_ok h; cases hp
  | buildFreq n => obtain ⟨t, -, rfl⟩ := installResult_ok h; cases hp
  | loadCodes n => obtain ⟨b, -, rfl⟩ := loadCodesResult_ok h; cases hp
  | encode n => obtain ⟨bits, -, rfl⟩ := encodeResult_ok h; cases hp
  | save n => obtain ⟨-, rfl⟩ := saveResult_ok h; cases hp
  | load n => obtain ⟨-, rfl⟩ | ⟨-, t, -, -, rfl⟩ := loadResult_ok h <;> cases hp

theorem encodeResult_coding {c : Coding P} {xs : List (InItem P)} {d : Done P}
    (h : encodeResult c xs = .ok d) : d.coding = c := by
  obtain ⟨bits, -, rfl⟩ := encodeResult_ok h
  rfl

theorem decodeResult_coding {c : Coding P} {xs : List (InItem P)} {d : Done P}
    (h : decodeResult c xs = .ok d) : d.coding = c := by
  obtain ⟨t, text, mid, -, -, -, rfl⟩ := decodeResult_ok h
  rfl

theorem saveResult_coding {c : Coding P} {d : Done P} (h : saveResult c = .ok d) : d.coding = c := by
  obtain ⟨-, rfl⟩ := saveResult_ok h
  rfl

/-- A command whose success keeps the coding state keeps it whatever its outcome (R215). -/
theorem exec_keeps_coding {i : Instr} {s t : Engine P}
    (hok : ∀ d, commandResult i s.coding (s.operand i.len) = .ok d → d.coding = s.coding)
    (h : exec i ⟨P, s⟩ = .next ⟨P, t⟩) : t.coding = s.coding := by
  obtain ⟨d, hd, rfl⟩ | ⟨e, -, rfl⟩ := exec_cases h
  · exact hok d hd
  · rfl

/-- The reset engine shows 0x00 (R37). -/
theorem Engine.reset_statusPins : (Engine.reset (P := P)).statusPins = 0#8 := by
  change 0#4 ++ BitVec.ofBool false ++ 0#2 ++ BitVec.ofBool false = 0#8
  decide

/-- In a state that meets the invariant the book fits the hardware: an imported one was tested, and a derived
code is no longer than the tree is deep (R28, R113). -/
theorem Coding.Inv.book_fits {c : Coding P} (hP : P.Valid) (h : c.Inv) : Book.Fits c.book := by
  unfold Coding.Inv at h
  split at h
  · obtain ⟨-, hb⟩ := h
    rw [hb]
    exact ⟨rfl, by simp⟩
  · obtain ⟨t, -, ⟨hn, -, -⟩, hb⟩ := h
    obtain ⟨-, -, -, -, -, hcode⟩ := treeSizeBounds P t hP hn
    rw [hb]
    exact ⟨derive_wf _, fun e he => hcode e.1 e.2 (Memory.read_of_mem (derive_wf _) he)⟩
  · obtain ⟨-, hfits⟩ := h
    exact hfits

end Sys2Proof.Machine
end

section
/-! No command reads the weights of the installed tree (10_state R39; 43_serializer R183). -/

namespace Sys2Proof.Machine

variable {P : Params}

/-- The coding state with every weight of its tree 0. -/
def Coding.forgetWeights (c : Coding P) : Coding P := { c with tree := c.tree.map zeroWeights }

/-- A command's success with the weights of the tree it leaves forgotten. -/
def Done.forgetWeights (d : Done P) : Done P := { d with coding := d.coding.forgetWeights }

/-- DECODE's walk turns on the shape and the symbols only. -/
theorem walkBits_zeroWeights (root cur : Node P) (mid : Bool) (bits : Code) :
    walkBits (zeroWeights root) (zeroWeights cur) mid bits = walkBits root cur mid bits := by
  induction bits generalizing cur mid with
  | nil => rw [walkBits_nil, walkBits_nil]
  | cons b bits ih =>
    cases cur with
    | leaf s w => rfl
    | internal w l r =>
      have hchild : (if b then zeroWeights r else zeroWeights l) = zeroWeights (if b then r else l) := by
        cases b <;> rfl
      simp only [zeroWeights, walkBits, hchild]
      cases if b then r else l with
      | leaf s w => simp only [zeroWeights, ih]
      | internal w l r => exact ih (.internal w l r) true

theorem encodeResult_forgetWeights (c : Coding P) (xs : List (InItem P)) :
    encodeResult c.forgetWeights xs = (encodeResult c xs).map Done.forgetWeights := by
  simp only [encodeResult, Coding.forgetWeights]
  cases encodeText c.book (itemSymbols xs) 0 <;> rfl

theorem decodeResult_forgetWeights (c : Coding P) (xs : List (InItem P)) :
    decodeResult c.forgetWeights xs = (decodeResult c xs).map Done.forgetWeights := by
  obtain ⟨m, tr, b⟩ := c
  cases m with
  | empty => rfl
  | imported => rfl
  | tree =>
    cases tr with
    | none => rfl
    | some t =>
      simp only [decodeResult, Coding.forgetWeights, Option.map_some, walkBits_zeroWeights]
      cases walkBits t t false (itemBits xs) <;> rfl

theorem savedString_forgetWeights (c : Coding P) : savedString c.forgetWeights = savedString c := by
  obtain ⟨m, tr, b⟩ := c
  cases m with
  | empty => rfl
  | imported => rfl
  | tree =>
    cases tr with
    | none => rfl
    | some t => exact serNode_zeroWeights t

theorem saveResult_forgetWeights (c : Coding P) :
    saveResult c.forgetWeights = (saveResult c).map Done.forgetWeights := by
  simp only [saveResult, savedString_forgetWeights]
  split <;> rfl

/-- With the weights forgotten a command ends the same, but for the weights of the tree it leaves. -/
theorem commandResult_forgetWeights (i : Instr) (c : Coding P) (xs : List (InItem P)) :
    commandResult i c.forgetWeights xs = commandResult i c xs ∨
      commandResult i c.forgetWeights xs = (commandResult i c xs).map Done.forgetWeights := by
  cases i with
  | buildText n | buildFreq n | loadCodes n | load n => exact .inl rfl
  | encode n => exact .inr (encodeResult_forgetWeights c xs)
  | decode n => exact .inr (decodeResult_forgetWeights c xs)
  | save n => exact .inr (saveResult_forgetWeights c)

end Sys2Proof.Machine
end

section
/-! The statements about the state of the machine (10_state). -/

open Sys2Proof Sys2Proof.Machine

/-- Settles O21: each mode's book fits, and a canonical memory lists a symbol once. -/
theorem bookFitsItsMemory : Obligations.BookFitsItsMemory := by
  rintro P s hP ⟨hc, -, -⟩
  obtain ⟨hwf, hlen⟩ := hc.book_fits hP
  exact ⟨hwf, Memory.length_le hwf, fun a c hac => hlen (a, c) (Memory.mem_of_read hac)⟩

/-- Settles O23: a success of the three commands keeps the coding state, as every error does. -/
theorem codecAndSaveKeepTheCodingState : Obligations.CodecAndSaveKeepTheCodingState := by
  rintro P len s t (h | h | h)
  · exact exec_keeps_coding (i := .encode len) (fun _ => encodeResult_coding) h
  · exact exec_keeps_coding (i := .decode len) (fun _ => decodeResult_coding) h
  · exact exec_keeps_coding (i := .save len) (fun _ => saveResult_coding) h

/-- Settles O25: both outcomes are functions of the coding state and the operand, and only ENCODE and DECODE
write ERRINFO and PARTIAL. -/
theorem statusFieldsAreWrittenAndNeverRead : Obligations.StatusFieldsAreWrittenAndNeverRead := by
  intro P i s t r h
  obtain ⟨d, hd, rfl⟩ | ⟨e, he, rfl⟩ := exec_cases h
  · exact ⟨fun _ => rfl, fun herr => (by cases herr), fun hp => ⟨rfl, commandResult_part hd hp⟩,
      _, exec_of_ok (s := { s with report := r }) hd, rfl, rfl, rfl⟩
  · obtain ⟨hinfo, -⟩ := Report.failure_inv e
    refine ⟨hinfo, fun herr => ?_, fun hp => (by cases hp),
      _, exec_of_error (s := { s with report := r }) he, rfl, rfl, rfl⟩
    rw [Error.eq_unknownSymbol_of_kind (Option.some.inj herr)] at he
    obtain ⟨hencode, hmem, hread⟩ := commandResult_unknownSymbol he
    exact ⟨hmem, hread, hencode⟩

/-- Settles O26: the walk of DECODE, the string of SAVE and the codes of ENCODE do not turn on weights. -/
theorem installedWeightsAreNeverRead : Obligations.InstalledWeightsAreNeverRead := by
  intro P i s t h
  have hsame := commandResult_forgetWeights i s.coding (s.operand i.len)
  obtain ⟨d, hd, rfl⟩ | ⟨e, he, rfl⟩ := exec_cases h
  · rw [hd] at hsame
    obtain hd' | hd' := hsame <;> exact ⟨_, exec_of_ok hd', rfl, rfl, rfl, rfl⟩
  · rw [he] at hsame
    obtain he' | he' := hsame <;> exact ⟨_, exec_of_error he', rfl, rfl, rfl, rfl⟩

/-- Settles O29: an error keeps the coding state, and each command's success names the mode it leaves. -/
theorem modeTransitions : Obligations.ModeTransitions := by
  intro P i s t h
  obtain ⟨d, hd, rfl⟩ | ⟨e, -, rfl⟩ := exec_cases h
  · refine ⟨fun herr => absurd rfl herr, fun _ => ?_⟩
    cases i with
    | buildText n => obtain ⟨t, -, rfl⟩ := installResult_ok hd; rfl
    | buildFreq n => obtain ⟨t, -, rfl⟩ := installResult_ok hd; rfl
    | loadCodes n => obtain ⟨b, -, rfl⟩ := loadCodesResult_ok hd; rfl
    | encode n => exact congrArg Coding.mode (encodeResult_coding hd)
    | decode n => exact congrArg Coding.mode (decodeResult_coding hd)
    | save n => exact congrArg Coding.mode (saveResult_coding hd)
    | load n =>
      obtain ⟨hx, rfl⟩ | ⟨hx, t, -, -, rfl⟩ := loadResult_ok hd
      · exact (if_pos hx).symm
      · exact (if_neg hx).symm
  · exact ⟨fun _ => rfl, fun herr => (by cases herr)⟩

/-- Settles O59: the arena's merge follows the merge of trees turn by turn, and the slot a turn fills stands
for the merged node. -/
theorem buildArenaDenotesTheTree : Obligations.BuildArenaDenotesTheTree := by
  intro P ft
  refine ⟨fun e he => buildArena_of_error he, fun t ht => ?_⟩
  obtain ⟨a, ha, hlen, hnode⟩ := buildArena_of_ok ht
  exact ⟨a, _, ha, hlen, rfl, hnode⟩

/-- Settles O60: the subtrees of a node lie behind its slot, the left one first. -/
theorem preorderArenaDenotesTheTree : Obligations.PreorderArenaDenotesTheTree := fun _ t =>
  ⟨preorderSlots_length t 0, arenaNode_of_preorderSlots le_rfl (List.prefix_refl _)⟩

/-- Settles O5: the fields are appended in this order, at widths 4, 1, 2 and 1. -/
theorem statusWordFields : Obligations.StatusWordFields := by
  intro P busy m r
  unfold statusWord
  refine ⟨?_, ?_, ?_, ?_⟩
  · simp only [BitVec.getLsbD_append]
    simp
  · exact (BitVec.extractLsb'_append_eq_of_le le_rfl).trans BitVec.extractLsb'_append_eq_right
  · simp only [BitVec.getLsbD_append]
    simp
  · exact (BitVec.extractLsb'_append_eq_of_le (by decide)).trans
      ((BitVec.extractLsb'_append_eq_of_le (by decide)).trans BitVec.extractLsb'_append_eq_left)

/-- Settles O8: every value stands in the definition of the reset engine, and the fields of its status word
are all zero. -/
theorem resetValues : Obligations.ResetValues := by
  refine ⟨rfl, rfl, ?_⟩
  rintro P s rfl
  exact ⟨rfl, rfl, rfl, rfl, Memory.read_nil, rfl, rfl, rfl, Engine.reset_statusPins⟩

end

section
/-! A step by the sequencer's phase (20_memory rules R52, R55, R57; 30_encoding R73, R74). -/

namespace Sys2Proof.Machine

variable {P : Params}

/-! ### The step, one equation a phase -/

section
variable {s : Engine P} {g : Shown P}

theorem step_of_idle (hr : s.rst = false) (hs : s.seq = .idle) : step ⟨P, s⟩ = .next ⟨P, s.acceptCommand⟩ := by
  simp [step, hr, hs]

theorem step_of_operands_missing {w : CmdWord P} {xs : List (InItem P)} (hr : s.rst = false)
    (hs : s.seq = .run g (.operands w xs)) (hlt : xs.length < cmdLen w) :
    step ⟨P, s⟩ = .next ⟨P, s.takeItem g w xs⟩ := by
  simp [step, hr, hs, hlt]

theorem step_of_operands_taken {w : CmdWord P} {xs : List (InItem P)} (hr : s.rst = false)
    (hs : s.seq = .run g (.operands w xs)) (hle : cmdLen w ≤ xs.length) :
    step ⟨P, s⟩ = runCommand w s := by
  simp [step, hr, hs, Nat.not_lt.mpr hle]

theorem step_of_respond {rsp : RspWord P} {out : List (OutItem P)} (hr : s.rst = false)
    (hs : s.seq = .run g (.respond rsp out)) : step ⟨P, s⟩ = .next ⟨P, s.moveResponse g rsp out⟩ := by
  simp [step, hr, hs]

theorem step_of_deliver {out : List (OutItem P)} (hr : s.rst = false) (hs : s.seq = .run g (.deliver out)) :
    step ⟨P, s⟩ = .next ⟨P, s.moveItem g out⟩ := by
  simp [step, hr, hs]

end

/-! ### The response and a result item at a host that is ready -/

theorem Engine.moveResponse_ready {s : Engine P} (g : Shown P) (rsp : RspWord P) (out : List (OutItem P))
    (h : s.rspReady = true) :
    s.moveResponse g rsp out = { s with rspOut := s.rspOut ++ [rsp], seq := seqAfter g out } :=
  if_pos h

theorem Engine.moveItem_cons {s : Engine P} (g : Shown P) {x : OutItem P} {out : List (OutItem P)}
    (h : s.outReady = true) :
    s.moveItem g (x :: out) = { s with itemOut := s.itemOut ++ [x], seq := seqAfter g out } :=
  if_pos h

/-! ### Running the accepted word -/

/-- A word that decodes is run as the command it decodes to (R74). -/
theorem runCommand_of_decode {w : CmdWord P} {i : Instr} (s : Engine P) (h : Sys2Proof.decode w = .ok i) :
    runCommand w s = exec i ⟨P, s⟩ := by
  simp [runCommand, h]

/-- The result of a command fits `OUTLEN` when its operand fits `LEN` (R54, R84); the invariant plays no part. -/
theorem commandResult_out_length_le {i : Instr} {c : Coding P} {xs : List (InItem P)} {d : Done P}
    (hx : xs.length ≤ P.lenMax) (h : commandResult i c xs = .ok d) : d.out.length ≤ P.lenMax := by
  cases i with
  | buildText n | buildFreq n =>
    obtain ⟨t, -, rfl⟩ := installResult_ok h
    exact Nat.zero_le _
  | loadCodes n =>
    obtain ⟨b, -, rfl⟩ := loadCodesResult_ok h
    exact Nat.zero_le _
  | encode n =>
    obtain ⟨bits, hbits, rfl⟩ := encodeResult_ok h
    obtain ⟨-, -, hlen⟩ := encodeText_ok (Nat.zero_le _) hbits
    simpa using hlen
  | decode n =>
    obtain ⟨t, text, mid, -, -, hwalk, rfl⟩ := decodeResult_ok h
    have hlen := walkBits_length hwalk
    rw [itemBits, List.length_map] at hlen
    exact hlen.trans hx
  | save n =>
    obtain ⟨hlen, rfl⟩ := saveResult_ok h
    exact hlen
  | load n =>
    obtain ⟨-, rfl⟩ | ⟨-, t, -, -, rfl⟩ := loadResult_ok h <;> exact Nat.zero_le _

/-- With its result or with its error, a command ends in one `complete` (R11, R54, R214). -/
theorem exec_completes {i : Instr} {s t : Engine P} (h : exec i ⟨P, s⟩ = .next ⟨P, t⟩) :
    ∃ c r out, t = s.complete c r out ∧ ((s.operand i.len).length ≤ P.lenMax → out.length ≤ P.lenMax) := by
  obtain ⟨d, hd, rfl⟩ | ⟨e, -, rfl⟩ := exec_cases h
  · exact ⟨_, _, _, rfl, fun hlen => commandResult_out_length_le hlen hd⟩
  · exact ⟨_, _, [], rfl, fun _ => Nat.zero_le _⟩

/-- So does every accepted word, legal or not, and its result items fit `OUTLEN`: its operand has at most `LEN`
items (R52, R73). -/
theorem runCommand_completes {w : CmdWord P} {s t : Engine P} (h : runCommand w s = .next ⟨P, t⟩) :
    ∃ c r out, t = s.complete c r out ∧ out.length ≤ P.lenMax := by
  obtain ⟨i, hdec, hexec⟩ | ⟨e, -, rfl⟩ := runCommand_cases h
  · obtain ⟨c, r, out, ht, hout⟩ := exec_completes hexec
    obtain ⟨-, -, hlen⟩ := decode_ok hdec
    exact ⟨c, r, out, ht, hout ((Engine.operand_length_le i.len s).trans (hlen ▸ cmdLen_le w))⟩
  · exact ⟨_, _, [], rfl, Nat.zero_le _⟩

/-! ### What `complete` leaves to the host -/

theorem Engine.complete_sameHostSide (c : Coding P) (r : Report P) (out : List (OutItem P)) (s : Engine P) :
    sameHostSide s (s.complete c r out) :=
  ⟨rfl, rfl, rfl, rfl, rfl, rfl, rfl⟩

/-- The response is valid at once, but in reset (R55, R240). -/
@[simp] theorem Engine.complete_rspValid (c : Coding P) (r : Report P) (out : List (OutItem P)) (s : Engine P) :
    (s.complete c r out).rspValid = !s.rst := by
  unfold Engine.rspValid Engine.rspData
  cases hr : s.rst <;> simp [hr]

end Sys2Proof.Machine
end

section
/-! The words that move in a step (20_memory rules R55, R57; 70_reset_and_hazards R240). -/

namespace Sys2Proof.Machine

variable {P : Params}

/-! ### What the ports offer and accept, by phase -/

section
variable {s : Engine P} {g : Shown P}

/-- In reset nothing is ready and nothing is valid (R240). -/
theorem Engine.ports_of_rst (hr : s.rst = true) :
    s.cmdReady = false ∧ s.inReady = false ∧ s.rspData = none ∧ s.outData = none := by
  unfold Engine.cmdReady Engine.inReady Engine.rspData Engine.outData
  simp only [hr]
  refine ⟨rfl, ?_, ?_, ?_⟩ <;> split <;> rfl

theorem Engine.ports_of_idle (hr : s.rst = false) (hs : s.seq = .idle) :
    s.cmdReady = true ∧ s.inReady = false ∧ s.rspData = none ∧ s.outData = none := by
  simp [Engine.cmdReady, Engine.busy, Engine.inReady, Engine.rspData, Engine.outData, hr, hs]

theorem Engine.ports_of_operands {w : CmdWord P} {xs : List (InItem P)} (hr : s.rst = false)
    (hs : s.seq = .run g (.operands w xs)) :
    s.cmdReady = false ∧ s.inReady = decide (xs.length < cmdLen w) ∧ s.rspData = none ∧ s.outData = none := by
  simp [Engine.cmdReady, Engine.busy, Engine.inReady, Engine.rspData, Engine.outData, hr, hs]

theorem Engine.ports_of_respond {rsp : RspWord P} {out : List (OutItem P)} (hr : s.rst = false)
    (hs : s.seq = .run g (.respond rsp out)) :
    s.cmdReady = false ∧ s.inReady = false ∧ s.rspData = some rsp ∧ s.outData = none := by
  simp [Engine.cmdReady, Engine.busy, Engine.inReady, Engine.rspData, Engine.outData, hr, hs]

theorem Engine.ports_of_deliver {out : List (OutItem P)} (hr : s.rst = false)
    (hs : s.seq = .run g (.deliver out)) :
    s.cmdReady = false ∧ s.inReady = false ∧ s.rspData = none ∧ s.outData = out.head? := by
  simp [Engine.cmdReady, Engine.busy, Engine.inReady, Engine.rspData, Engine.outData, hr, hs]

end

/-- `cmd_ready` is 1 exactly when SEQ is IDLE and `rst` is 0 (R57). -/
theorem Engine.cmdReady_iff (s : Engine P) : s.cmdReady = true ↔ s.seq = .idle ∧ s.rst = false := by
  unfold Engine.cmdReady Engine.busy
  cases s.seq <;> simp

/-- `in_ready` is 1 only while a running command has items to take (R57). -/
theorem Engine.operands_of_inReady {s : Engine P} (h : s.inReady = true) :
    ∃ g w xs, s.seq = .run g (.operands w xs) ∧ xs.length < cmdLen w := by
  unfold Engine.inReady at h
  split at h
  next g w xs hs => exact ⟨g, w, xs, hs, by simp_all⟩
  all_goals cases h

/-! ### The words a step moves -/

/-- From `s` to `t` exactly the words move whose `valid` and `ready` are both 1, in order, a word that is
not taken is held, and the host's pins are not written (R57). -/
def Engine.MovesTo (s t : Engine P) : Prop :=
  t.cmdIn = (if s.cmdReady = true then s.cmdIn.tail else s.cmdIn) ∧
  t.itemIn = (if s.inReady = true then s.itemIn.tail else s.itemIn) ∧
  t.rspOut = s.rspOut ++ (if s.rspReady = true then s.rspData.toList else []) ∧
  t.itemOut = s.itemOut ++ (if s.outReady = true then s.outData.toList else []) ∧
  (t.rst = s.rst ∧ t.rspReady = s.rspReady ∧ t.outReady = s.outReady) ∧
  (∀ w, s.rspData = some w → s.rspReady = false → t.rspData = some w) ∧
  (∀ x, s.outData = some x → s.outReady = false → t.outData = some x)

section
variable {s : Engine P} {g : Shown P}

/-- A reset edge moves no word (R240, R241). -/
theorem Engine.movesTo_resetEngine (hr : s.rst = true) : s.MovesTo s.resetEngine := by
  obtain ⟨hcmd, hin, hrsp, hout⟩ := Engine.ports_of_rst hr
  simp [Engine.MovesTo, hcmd, hin, hrsp, hout]

theorem Engine.movesTo_acceptCommand (hr : s.rst = false) (hs : s.seq = .idle) :
    s.MovesTo s.acceptCommand := by
  obtain ⟨hcmd, hin, hrsp, hout⟩ := Engine.ports_of_idle hr hs
  cases hw : s.cmdIn with
  | nil => simp [Engine.MovesTo, Engine.acceptCommand_nil s hw, hw, hcmd, hin, hrsp, hout]
  | cons w ws => simp [Engine.MovesTo, Engine.acceptCommand_cons s hw, hw, hcmd, hin, hrsp, hout]

theorem Engine.movesTo_takeItem {w : CmdWord P} {xs : List (InItem P)} (hr : s.rst = false)
    (hs : s.seq = .run g (.operands w xs)) (hlt : xs.length < cmdLen w) : s.MovesTo (s.takeItem g w xs) := by
  obtain ⟨hcmd, hin, hrsp, hout⟩ := Engine.ports_of_operands hr hs
  cases hx : s.itemIn with
  | nil => simp [Engine.MovesTo, Engine.takeItem_nil g w xs s hx, hx, hcmd, hin, hrsp, hout]
  | cons x rest => simp [Engine.MovesTo, Engine.takeItem_cons g w xs s hx, hx, hcmd, hin, hrsp, hout, hlt]

/-- Running a command moves no word: its operand is complete and its response not yet valid (R52, R55). -/
theorem Engine.movesTo_complete {w : CmdWord P} {xs : List (InItem P)} (hr : s.rst = false)
    (hs : s.seq = .run g (.operands w xs)) (hle : cmdLen w ≤ xs.length) (c : Coding P) (r : Report P)
    (out : List (OutItem P)) : s.MovesTo (s.complete c r out) := by
  obtain ⟨hcmd, hin, hrsp, hout⟩ := Engine.ports_of_operands hr hs
  simp [Engine.MovesTo, hcmd, hin, hrsp, hout, hle]

theorem Engine.movesTo_moveResponse {rsp : RspWord P} {out : List (OutItem P)} (hr : s.rst = false)
    (hs : s.seq = .run g (.respond rsp out)) : s.MovesTo (s.moveResponse g rsp out) := by
  obtain ⟨hcmd, hin, hrsp, hout⟩ := Engine.ports_of_respond hr hs
  obtain ⟨hready, heq⟩ | ⟨hready, heq⟩ := s.moveResponse_cases g rsp out <;>
    simp [Engine.MovesTo, heq, hready, hcmd, hin, hrsp, hout]

theorem Engine.movesTo_moveItem {out : List (OutItem P)} (hr : s.rst = false)
    (hs : s.seq = .run g (.deliver out)) : s.MovesTo (s.moveItem g out) := by
  obtain ⟨hcmd, hin, hrsp, hout⟩ := Engine.ports_of_deliver hr hs
  obtain ⟨rfl, heq⟩ | ⟨x, xs, rfl, hready, heq⟩ | ⟨x, xs, rfl, hready, heq⟩ := s.moveItem_cases g out
  · simp [Engine.MovesTo, heq, hcmd, hin, hrsp, hout]
  · simp [Engine.MovesTo, heq, hready, hcmd, hin, hrsp, hout]
  · simp [Engine.MovesTo, heq, hready, hcmd, hin, hrsp, hout]

end

/-- Every step moves exactly the words both sides of whose handshake are up. -/
theorem step_movesTo {s t : Engine P} (h : step ⟨P, s⟩ = .next ⟨P, t⟩) : s.MovesTo t := by
  obtain ⟨hr, rfl⟩ | ⟨hr, ⟨hs, rfl⟩ | ⟨g, w, xs, hs, hlt, rfl⟩ | ⟨g, w, xs, hs, hle, hrun⟩ |
    ⟨g, rsp, out, hs, rfl⟩ | ⟨g, out, hs, rfl⟩⟩ := step_cases h
  · exact Engine.movesTo_resetEngine hr
  · exact Engine.movesTo_acceptCommand hr hs
  · exact Engine.movesTo_takeItem hr hs hlt
  · obtain ⟨c, r, out, rfl, -⟩ := runCommand_completes hrun
    exact Engine.movesTo_complete hr hs hle c r out
  · exact Engine.movesTo_moveResponse hr hs
  · exact Engine.movesTo_moveItem hr hs

end Sys2Proof.Machine
end

section
/-! A whole command, from an idle engine to an idle engine (20_memory rules R52, R54, R55). -/

namespace Sys2Proof.Machine

variable {P : Params}

/-- `OUTLEN` of a response word is the length it was made with, when the field holds it (R84). -/
theorem rspOutLen_responseWord (m : Mode) (r : Report P) {n : Nat} (hn : n ≤ P.lenMax) :
    rspOutLen (responseWord m r n) = n := by
  have hlt : n < 2 ^ P.lenW := by have := P.lenMax_succ; omega
  have hword : responseWord m r n =
      (BitVec.ofNat P.lenW n ++ (r.errinfo ++ statusWord false m r)).cast (Nat.add_assoc ..).symm :=
    BitVec.append_assoc
  have hfield : (responseWord m r n).extractLsb' (8 + P.symW) P.lenW = BitVec.ofNat P.lenW n := by
    rw [hword, BitVec.extractLsb'_cast, Nat.add_comm 8]
    exact BitVec.extractLsb'_append_eq_left
  rw [rspOutLen, hfield, BitVec.toNat_ofNat, Nat.mod_eq_of_lt hlt]

theorem Engine.shown_of_idle {s : Engine P} (hs : s.seq = .idle) : s.shown = s.current := by
  simp only [Engine.shown, hs]

/-! ### Runs of several steps -/

theorem run_succ {M : Host.Core} {s t : M.State} (k : Nat) (h : M.step s = .next t) :
    M.run (k + 1) s = M.run k t := by
  simp only [Host.Core.run, h]

theorem run_add {M : Host.Core} {m : Nat} (n : Nat) {s t : M.State} (h : M.run m s = .next t) :
    M.run (m + n) s = M.run n t := by
  induction m generalizing s with
  | zero =>
    cases h
    rw [Nat.zero_add]
  | succ m ih =>
    rw [Nat.succ_add]
    cases hstep : M.step s with
    | next s' =>
      rw [run_succ m hstep] at h
      rw [run_succ (m + n) hstep, ih h]
    | fault r => simp [Host.Core.run, hstep] at h
    | refused r => simp [Host.Core.run, hstep] at h

theorem run_after_step {s t : State} (k : Nat) (h : step s = .next t) :
    Host.Core.run core (k + 1) s = Host.Core.run core k t :=
  run_succ (M := core) k h

/-- Items at the port are taken one a step, until the command has its operand (R52). -/
theorem run_takes_items {s : Engine P} {g : Shown P} {w : CmdWord P} {xs items rest : List (InItem P)}
    (hr : s.rst = false) (hs : s.seq = .run g (.operands w xs)) (hin : s.itemIn = items ++ rest)
    (hlen : xs.length + items.length ≤ cmdLen w) :
    Host.Core.run core items.length (State.mk P s) =
      .next ⟨P, { s with itemIn := rest, seq := .run g (.operands w (xs ++ items)) }⟩ := by
  induction items generalizing s xs with
  | nil =>
    obtain ⟨⟩ := s
    cases hs
    cases hin
    rw [List.append_nil]
    rfl
  | cons x items ih =>
    rw [List.length_cons] at hlen
    have hstep := step_of_operands_missing hr hs (by omega)
    rw [Engine.takeItem_cons g w xs s hin] at hstep
    have hrest := ih (s := { s with itemIn := items ++ rest, seq := .run g (.operands w (xs ++ [x])) })
      hr rfl rfl (by rw [List.length_append, List.length_singleton]; omega)
    rw [List.append_assoc] at hrest
    exact (run_after_step _ hstep).trans hrest

/-- The result items are delivered one a step to a host that is ready, and then the engine is idle (R54, R55). -/
theorem run_delivers {s : Engine P} {g : Shown P} {out : List (OutItem P)} (hr : s.rst = false)
    (hready : s.outReady = true) (hs : s.seq = seqAfter g out) :
    Host.Core.run core out.length (State.mk P s) =
      .next ⟨P, { s with seq := .idle, itemOut := s.itemOut ++ out }⟩ := by
  induction out generalizing s with
  | nil =>
    obtain ⟨⟩ := s
    cases hs
    rw [List.append_nil]
    rfl
  | cons x out ih =>
    have hstep := step_of_deliver hr hs
    rw [Engine.moveItem_cons g hready] at hstep
    have hrest := ih (s := { s with itemOut := s.itemOut ++ [x], seq := seqAfter g out }) hr hready rfl
    rw [List.append_assoc] at hrest
    exact (run_after_step _ hstep).trans hrest

/-- A valid response is taken by a host that is ready, then its result items, and the engine is idle (R55). -/
theorem run_answers {s : Engine P} {g : Shown P} {rsp : RspWord P} {out : List (OutItem P)}
    (hr : s.rst = false) (hrsp : s.rspReady = true) (hout : s.outReady = true)
    (hs : s.seq = .run g (.respond rsp out)) :
    Host.Core.run core (out.length + 1) (State.mk P s) =
      .next ⟨P, { s with seq := .idle, rspOut := s.rspOut ++ [rsp], itemOut := s.itemOut ++ out }⟩ := by
  have hstep := step_of_respond hr hs
  rw [Engine.moveResponse_ready g rsp out hrsp] at hstep
  exact (run_after_step _ hstep).trans
    (run_delivers (s := { s with rspOut := s.rspOut ++ [rsp], seq := seqAfter g out }) hr hout rfl)

/-- With the operand complete the command runs, and its response and result items are taken (R54, R55). -/
theorem run_command_and_answer {s : Engine P} {g : Shown P} {w : CmdWord P} {xs : List (InItem P)} {c : Coding P}
    {r : Report P} {out : List (OutItem P)} (hs : s.seq = .run g (.operands w xs)) (hle : cmdLen w ≤ xs.length)
    (hrun : runCommand w s = .next ⟨P, s.complete c r out⟩) (hr : s.rst = false) (hrsp : s.rspReady = true)
    (hout : s.outReady = true) :
    Host.Core.run core (out.length + 2) (State.mk P s) =
      .next ⟨P, { s.complete c r out with
        seq := .idle
        rspOut := s.rspOut ++ [responseWord c.mode r out.length]
        itemOut := s.itemOut ++ out }⟩ :=
  (run_after_step _ ((step_of_operands_taken hr hs hle).trans hrun)).trans
    (run_answers (s := s.complete c r out) hr hrsp hout (Engine.complete_seq c r out s))

/-- An idle engine accepts the word at the port and takes its operand (R52). -/
theorem run_takes_operand {s : Engine P} {w : CmdWord P} {ws : List (CmdWord P)} {items rest : List (InItem P)}
    (hr : s.rst = false) (hs : s.seq = .idle) (hcmd : s.cmdIn = w :: ws) (hin : s.itemIn = items ++ rest)
    (hlen : items.length = cmdLen w) :
    Host.Core.run core (cmdLen w + 1) (State.mk P s) =
      .next ⟨P, Engine.withOperand w items { s with cmdIn := ws, itemIn := rest }⟩ := by
  have hshown := Engine.shown_of_idle hs
  have hstep := step_of_idle hr hs
  rw [Engine.acceptCommand_cons s hcmd] at hstep
  have htake := run_takes_items (s := { s with cmdIn := ws, seq := .run s.current (.operands w []) })
    hr rfl hin (by rw [List.length_nil]; omega)
  rw [hlen, List.nil_append, ← hshown] at htake
  rw [← hshown] at hstep
  exact (run_after_step _ hstep).trans htake

end Sys2Proof.Machine
end

section
/-! The statements about the ports and the command loop (20_memory). -/

open Sys2Proof Sys2Proof.Machine

/-- Settles O18: the word and its operand are taken, the command runs, its answer is taken. -/
theorem commandEndsWithOneResponse : Obligations.CommandEndsWithOneResponse := by
  intro P s w ws items rest hr hs hrsp hout hcmd hin hlen
  have hshown : Engine.shown { s with cmdIn := ws, itemIn := rest } = s.current := Engine.shown_of_idle hs
  have htake := run_takes_operand hr hs hcmd hin hlen
  obtain ⟨t, hrun⟩ := runCommand_total w (Engine.withOperand w items { s with cmdIn := ws, itemIn := rest })
  obtain ⟨c, r, out, rfl, hfits⟩ := runCommand_completes hrun
  refine ⟨_, responseWord c.mode r out.length, out, hrun, ?_, rspOutLen_responseWord _ _ hfits, ?_⟩
  · rw [Engine.complete_seq, Engine.withOperand_shown, hshown]
  · have hanswer := run_command_and_answer (Engine.withOperand_seq ..) hlen.ge hrun hr hrsp hout
    rw [show cmdLen w + 3 + out.length = cmdLen w + 1 + (out.length + 2) by omega]
    exact (run_add (M := core) _ htake).trans hanswer

/-- Settles O14: each phase moves the words of its own channel and leaves the others. -/
theorem wordsMoveOnHandshakeInOrder : Obligations.WordsMoveOnHandshakeInOrder := by
  intro P s t h
  obtain ⟨hcmd, hitem, hrsp, hout, ⟨hrst, hrspReady, houtReady⟩, hrspHeld, houtHeld⟩ := step_movesTo h
  exact ⟨hcmd, hitem, hrsp, hout, hrst, hrspReady, houtReady, s.cmdReady_iff, Engine.operands_of_inReady,
    hrspHeld, houtHeld⟩

/-- Settles O15: the channels touch neither the coding state nor the report, and a command that runs
completes with its response. -/
theorem stateChangesWhenResponseBecomesValid : Obligations.StateChangesWhenResponseBecomesValid := by
  intro P s t h hr hchange
  obtain ⟨hrst, -⟩ | ⟨-, ⟨-, rfl⟩ | ⟨g, w, xs, -, -, rfl⟩ | ⟨g, w, xs, hs, -, hrun⟩ |
    ⟨g, rsp, out, -, rfl⟩ | ⟨g, out, -, rfl⟩⟩ := step_cases h
  · simp [hr] at hrst
  · simp at hchange
  · simp at hchange
  · obtain ⟨c, r, out, rfl, -⟩ := runCommand_completes hrun
    obtain ⟨-, -, hrsp, -⟩ := Engine.ports_of_operands hr hs
    exact ⟨by rw [Engine.rspValid, hrsp]; rfl, by rw [Engine.complete_rspValid, hr]; rfl⟩
  · simp at hchange
  · simp at hchange

/-- Settles O22: a command ends in `complete`, which writes nothing of the host's. -/
theorem commandLeavesTheHostSide : Obligations.CommandLeavesTheHostSide := by
  intro P i s t h
  obtain ⟨c, r, out, rfl, -⟩ := exec_completes h
  exact ⟨Engine.complete_sameHostSide c r out s, Engine.complete_shown c r out s,
    Engine.complete_rspValid c r out s⟩

/-- Settles O10: with the operand complete the step runs the word, and the word decodes to the command. -/
theorem stepRunsTheDecodedCommand : Obligations.StepRunsTheDecodedCommand := by
  intro P s h w xs i hr hs hle hdec
  rw [step_of_operands_taken hr hs hle, runCommand_of_decode s hdec]

/-- Settles O11: with items missing the step is `takeItem`, and an idle one `acceptCommand`; each takes the
word at its port or waits. -/
theorem stepTakesItemsBeforeItRuns : Obligations.StepTakesItemsBeforeItRuns := by
  refine fun P => ⟨fun s g w xs hr hs hlt => ?_, fun s hr hs => ?_⟩
  · rw [step_of_operands_missing hr hs hlt]
    exact ⟨fun hin => by rw [Engine.takeItem_nil g w xs s hin],
      fun x rest hin => by rw [Engine.takeItem_cons g w xs s hin]⟩
  · rw [step_of_idle hr hs]
    exact ⟨fun hin => by rw [Engine.acceptCommand_nil s hin],
      fun w ws hin => by rw [Engine.acceptCommand_cons s hin]⟩

end

section
/-! The decoder by its fields, and the command word put together from them (30_encoding rules R70 to R74). -/

namespace Sys2Proof

variable {P : Params}

theorem ofOpcode_eq_some_iff (op : BitVec 4) (n : Nat) (i : Instr) :
    ofOpcode op n = some i ↔ opcode i = op ∧ i.len = n := by
  refine ⟨ofOpcode_some, ?_⟩
  rintro ⟨rfl, rfl⟩
  cases i <;> rfl

/-- No command has the opcodes 0 and 8 to 15 (R73). -/
theorem ofOpcode_eq_none_iff (op : BitVec 4) (n : Nat) :
    ofOpcode op n = none ↔ op.toNat = 0 ∨ 8 ≤ op.toNat := by
  unfold ofOpcode
  split
  case h_8 =>
    refine ⟨fun _ => ?_, fun _ => rfl⟩
    simp only [imp_false] at *
    omega
  all_goals exact ⟨nofun, fun hreserved => by omega⟩

/-- A word decodes to a command exactly when its fields are the command's (R70, R74). -/
theorem decode_eq_ok_iff (w : CmdWord P) (i : Instr) :
    decode w = .ok i ↔ cmdRsvd w = 0#4 ∧ opcode i = cmdOp w ∧ i.len = cmdLen w := by
  refine ⟨decode_ok, fun ⟨hrsvd, hfields⟩ => ?_⟩
  have hname := (ofOpcode_eq_some_iff (cmdOp w) (cmdLen w) i).mpr hfields
  simp [decode, hrsvd, hname]

/-- A word that is no command: `RSVD ≠ 0`, or `OP` 0 or 8 to 15 (R73). -/
def ReservedWord (w : CmdWord P) : Prop :=
  cmdRsvd w ≠ 0#4 ∨ (cmdOp w).toNat = 0 ∨ 8 ≤ (cmdOp w).toNat

/-- The decoder refuses the reserved words (R73, R74). -/
theorem decode_error_of_reserved {w : CmdWord P} (h : ReservedWord w) : ∃ e, decode w = .error e := by
  cases hdec : decode w with
  | error e => exact ⟨e, rfl⟩
  | ok i =>
    obtain ⟨hrsvd, hfields⟩ := decode_ok hdec
    have hname := (ofOpcode_eq_some_iff (cmdOp w) (cmdLen w) i).mpr hfields
    obtain hne | hop := h
    · exact absurd hrsvd hne
    · rw [(ofOpcode_eq_none_iff _ _).mpr hop] at hname
      cases hname

/-- Every other word is a command (R74). -/
theorem decode_ok_of_not_reserved {w : CmdWord P} (h : ¬ ReservedWord w) : ∃ i, decode w = .ok i := by
  obtain ⟨hrsvd, hop⟩ := not_or.mp h
  cases hname : ofOpcode (cmdOp w) (cmdLen w) with
  | none => exact absurd ((ofOpcode_eq_none_iff _ _).mp hname) hop
  | some i => exact ⟨i, (decode_eq_ok_iff w i).mpr ⟨not_not.mp hrsvd, ofOpcode_some hname⟩⟩

/-- The three fields are the whole word (R70). -/
theorem cmdWord_eq_fields (w : CmdWord P) : BitVec.ofNat P.lenW (cmdLen w) ++ cmdRsvd w ++ cmdOp w = w := by
  unfold cmdLen cmdRsvd cmdOp
  rw [BitVec.ofNat_toNat, BitVec.setWidth_eq,
    BitVec.extractLsb'_append_extractLsb'_eq_extractLsb' (start₁ := 4) (len₁ := 4) rfl,
    BitVec.extractLsb'_append_extractLsb'_eq_extractLsb' (start₁ := 0) (len₁ := 4) rfl]
  exact BitVec.extractLsb'_eq_self

theorem encode_eq_of_decode {w : CmdWord P} {i : Instr} (h : decode w = .ok i) : encode P i = w := by
  obtain ⟨hrsvd, hop, hlen⟩ := decode_ok h
  rw [encode, hop, hlen, ← hrsvd, cmdWord_eq_fields]

theorem wellFormed_of_decode {w : CmdWord P} {i : Instr} (h : decode w = .ok i) : i.wellFormed P = true := by
  obtain ⟨-, -, hlen⟩ := decode_ok h
  rw [wellFormed_iff, hlen]
  exact cmdLen_le w

theorem decode_encode {i : Instr} (h : i.wellFormed P = true) : decode (encode P i) = .ok i := by
  obtain ⟨hop, hrsvd, hlen⟩ := Laws.EncodedFields.all i P
  exact (decode_eq_ok_iff _ i).mpr ⟨hrsvd, hop.symm, (hlen h).symm⟩

end Sys2Proof
end

section
/-! Reserved words, and the fields of the response word (30_encoding rules R73, R84). -/

namespace Sys2Proof.Machine

variable {P : Params}

/-- A reserved word is answered with IllegalCommandError (R73, R218). -/
theorem runCommand_of_reserved {w : CmdWord P} (s : Engine P) (h : ReservedWord w) :
    runCommand w s = .next ⟨P, s.raise .illegalCommand⟩ := by
  obtain ⟨e, hdec⟩ := decode_error_of_reserved h
  simp only [runCommand, hdec]

@[simp] theorem rspStatus_responseWord (m : Mode) (r : Report P) (n : Nat) :
    rspStatus (responseWord m r n) = statusWord false m r := by
  unfold rspStatus responseWord
  exact BitVec.extractLsb'_append_eq_right

@[simp] theorem rspErrinfo_responseWord (m : Mode) (r : Report P) (n : Nat) :
    rspErrinfo (responseWord m r n) = r.errinfo := by
  unfold rspErrinfo responseWord
  rw [BitVec.extractLsb'_append_eq_of_le le_rfl]
  exact BitVec.extractLsb'_append_eq_right

@[simp] theorem rspErr_responseWord (m : Mode) (r : Report P) (n : Nat) :
    rspErr (responseWord m r n) = errField r.err := by
  obtain ⟨-, -, -, herr⟩ := statusWordFields P false m r
  unfold rspErr responseWord
  rw [BitVec.extractLsb'_append_eq_of_add_le (by decide), herr]

/-- No error kind has the number 0 (R211). -/
theorem errField_eq_zero_iff (e : Option ErrorKind) : errField e = 0#4 ↔ e = none := by
  cases e with
  | none => simp [errField]
  | some k => cases k <;> decide

/-- The response of a completed command tells what it left, when its result fits `OUTLEN` (R54, R84). -/
theorem Engine.complete_response_tells (c : Coding P) (r : Report P) {out : List (OutItem P)} (s : Engine P)
    (hout : out.length ≤ P.lenMax) (herr : r.err ≠ none → out = []) :
    ∃ rsp, (s.complete c r out).seq = .run s.shown (.respond rsp (s.complete c r out).staged) ∧
      rspStatus rsp = statusWord false c.mode r ∧ rspErrinfo rsp = r.errinfo ∧
      rspOutLen rsp = out.length ∧ rspErr rsp = errField r.err ∧ (rspErr rsp = 0#4 ↔ r.err = none) ∧
      (r.err ≠ none → out = []) :=
  ⟨responseWord c.mode r out.length, rfl, rspStatus_responseWord .., rspErrinfo_responseWord ..,
    rspOutLen_responseWord _ _ hout, rspErr_responseWord .., by rw [rspErr_responseWord, errField_eq_zero_iff],
    herr⟩

/-- From the complete operand of a reserved word: the error, then its response, and the engine is idle (R55,
R73). There is no result item, so the host need not be ready for one. -/
theorem run_reserved_and_answer {s : Engine P} {g : Shown P} {w : CmdWord P} {xs : List (InItem P)}
    (hw : ReservedWord w) (hs : s.seq = .run g (.operands w xs)) (hle : cmdLen w ≤ xs.length)
    (hr : s.rst = false) (hrsp : s.rspReady = true) :
    Host.Core.run core 2 (State.mk P s) =
      .next ⟨P, { s with
        seq := .idle
        rspOut := s.rspOut ++ [responseWord s.coding.mode (Report.failure .illegalCommand) 0]
        report := Report.failure .illegalCommand }⟩ := by
  have hrun := (step_of_operands_taken hr hs hle).trans (runCommand_of_reserved s hw)
  have hanswer := step_of_respond (s := s.raise .illegalCommand) hr (Engine.raise_seq ..)
  rw [Engine.moveResponse_ready (s := s.raise .illegalCommand) _ _ _ hrsp] at hanswer
  exact (run_after_step 1 hrun).trans (run_after_step 0 hanswer)

end Sys2Proof.Machine
end

section
/-! What a command reads of its operand items (30_encoding rules R75 to R81). -/

namespace Sys2Proof.Machine

variable {P : Params}

/-! ### From a command's function to `exec` -/

/-- The end of a command keeps nothing of the operand (R54). -/
theorem finish_withOperand (w : CmdWord P) (xs : List (InItem P)) (s : Engine P)
    (r : Except (Error P) (Done P)) : finish (s.withOperand w xs) r = finish s r := by
  cases r <;> rfl

theorem exec_withOperand (i : Instr) (w : CmdWord P) (xs : List (InItem P)) (s : Engine P) :
    exec i ⟨P, s.withOperand w xs⟩ = finish s (commandResult i s.coding (xs.take i.len)) := by
  rw [exec_eq, finish_withOperand, Engine.withOperand_coding, Engine.withOperand_operand]

/-! ### Symbol, character and bit items -/

theorem itemSymbols_take (n : Nat) (xs : List (InItem P)) :
    itemSymbols (xs.take n) = (itemSymbols xs).take n := List.map_take

theorem itemBits_take (n : Nat) (xs : List (InItem P)) : itemBits (xs.take n) = (itemBits xs).take n :=
  List.map_take

theorem itemSymbols_eq_nil_iff {xs : List (InItem P)} : itemSymbols xs = [] ↔ xs = [] := List.map_eq_nil_iff

section
variable {xs ys : List (InItem P)}

/-- BUILD_TEXT reads the symbols of its items (R76). -/
theorem buildTextTree_congr (h : itemSymbols xs = itemSymbols ys) : buildTextTree xs = buildTextTree ys := by
  simp only [buildTextTree, ← itemSymbols_eq_nil_iff, h]

/-- ENCODE reads the symbols of its items (R76). -/
theorem encodeResult_congr (c : Coding P) (h : itemSymbols xs = itemSymbols ys) :
    encodeResult c xs = encodeResult c ys := by
  simp only [encodeResult, h]

/-- LOAD reads the characters of its items (R77). -/
theorem loadResult_congr (h : itemSymbols xs = itemSymbols ys) : loadResult xs = loadResult ys := by
  simp only [loadResult, ← itemSymbols_eq_nil_iff, h]

/-- DECODE reads bit 0 of its items (R78). -/
theorem decodeResult_congr (c : Coding P) (h : itemBits xs = itemBits ys) :
    decodeResult c xs = decodeResult c ys := by
  simp only [decodeResult, h]

end

/-! ### Code records -/

/-- A record as LOAD_CODES reads it: the header, and bit 0 of each bit item (R80). -/
def recordRead (r : CodeRecord P) : InItem P × Code := (r.1, itemBits r.2)

theorem recordItems_cons (r : CodeRecord P) (rs : List (CodeRecord P)) :
    recordItems (r :: rs) = r.1 :: (r.2 ++ recordItems rs) := by
  simp [recordItems]

/-- The turn of LOAD_CODES on a record that is not cut short (R135, R136). -/
theorem importRecords_record {r : CodeRecord P} (hr : itemCount r.1 = r.2.length) (fuel : Nat)
    (rs : List (CodeRecord P)) (b : Book P) :
    importRecords (fuel + 1) (recordItems (r :: rs)) b =
      if P.codeMax < itemCount r.1 then .error .capacity
      else if (Memory.read b (itemSymbol r.1)).isSome then .error .invalidOperand
      else importRecords fuel (recordItems rs) (Memory.write b (itemSymbol r.1) (itemBits r.2)) := by
  have hfits : ¬ (r.2 ++ recordItems rs).length < itemCount r.1 := by
    rw [List.length_append, hr]
    omega
  rw [recordItems_cons, importRecords, if_neg hfits, hr, List.drop_left, List.take_left]

/-- Records that read the same have equally many items. -/
theorem recordItems_length_congr {rs rs' : List (CodeRecord P)} (h : rs.map recordRead = rs'.map recordRead) :
    (recordItems rs).length = (recordItems rs').length := by
  have hsum : ∀ ts : List (CodeRecord P),
      (recordItems ts).length = ((ts.map recordRead).map (fun q => q.2.length + 1)).sum := fun ts => by
    simp [recordItems, List.length_flatMap, recordRead, itemBits, Function.comp_def]
  rw [hsum, hsum, h]

/-- Of well framed records LOAD_CODES reads the headers and bit 0 of the bit items (R80). -/
theorem importRecords_congr {rs rs' : List (CodeRecord P)} (hrs : ∀ r ∈ rs, itemCount r.1 = r.2.length)
    (h : rs.map recordRead = rs'.map recordRead) (fuel : Nat) (b : Book P) :
    importRecords fuel (recordItems rs) b = importRecords fuel (recordItems rs') b := by
  induction rs generalizing rs' fuel b with
  | nil => rw [List.map_eq_nil_iff.mp h.symm]
  | cons r rs ih =>
    cases rs' with
    | nil => cases h
    | cons r' rs' =>
      obtain ⟨hread, htail⟩ := List.cons.inj h
      obtain ⟨hheader, hbits⟩ := Prod.mk.inj hread
      cases fuel with
      | zero => rfl
      | succ fuel =>
        obtain ⟨hr, hrs⟩ := List.forall_mem_cons.mp hrs
        have hlen : r.2.length = r'.2.length := by simpa [itemBits] using congrArg List.length hbits
        rw [importRecords_record hr, importRecords_record (hheader ▸ hr.trans hlen), hheader, hbits,
          ih hrs htail]

theorem loadCodesResult_congr {rs rs' : List (CodeRecord P)} (hrs : ∀ r ∈ rs, itemCount r.1 = r.2.length)
    (h : rs.map recordRead = rs'.map recordRead) :
    loadCodesResult (recordItems rs) = loadCodesResult (recordItems rs') := by
  simp only [loadCodesResult, importBook, recordItems_length_congr h, importRecords_congr hrs h]

end Sys2Proof.Machine
end

section
/-! The statements about the encoding (30_encoding). -/

open Sys2Proof Sys2Proof.Machine

/-- Settles O1: the encoder writes the fields of a well-formed command as they are, and a word decodes to the
command that has its fields. -/
theorem decodeOfEncode : Obligations.DecodeOfEncode := by
  intro P i h
  exact decode_encode h

/-- Settles O2: a word is its three fields, which are the decoded command's. -/
theorem decodedWordIsItsEncoding : Obligations.DecodedWordIsItsEncoding := by
  intro P w i h
  exact ⟨wellFormed_of_decode h, encode_eq_of_decode h⟩

/-- Settles O3: the opcodes that name no command are 0 and 8 to 15, so a word is reserved or has a command's
fields. -/
theorem decoderSplitsEveryWord : Obligations.DecoderSplitsEveryWord := by
  intro P w s
  refine ⟨fun h => ⟨decode_error_of_reserved h, runCommand_of_reserved s h⟩, fun h => ?_⟩
  obtain ⟨i, hdec⟩ := decode_ok_of_not_reserved h
  obtain ⟨-, hop, hlen⟩ := decode_ok hdec
  exact ⟨i, hdec, hop, hlen, runCommand_of_decode s hdec⟩

/-- Settles O6: either outcome is one `complete`, whose response word is made of the new state's fields. -/
theorem responseTellsTheOutcome : Obligations.ResponseTellsTheOutcome := by
  intro P i s hlen
  obtain ⟨t, hexec⟩ := exec_total i s
  obtain ⟨d, hd, rfl⟩ | ⟨e, -, rfl⟩ := exec_cases hexec
  · obtain ⟨rsp, htells⟩ := Engine.complete_response_tells d.coding (Report.success d.part) s
      (commandResult_out_length_le hlen hd) (fun herr => absurd rfl herr)
    exact ⟨_, rsp, hexec, htells⟩
  · obtain ⟨rsp, htells⟩ := Engine.complete_response_tells (out := []) s.coding (Report.failure e) s
      (Nat.zero_le _) (fun _ => rfl)
    exact ⟨_, rsp, hexec, htells⟩

/-- Settles O12: the word and its `LEN` items are taken as for any command, then come the error and its
response. -/
theorem reservedWordIsIllegalCommand : Obligations.ReservedWordIsIllegalCommand := by
  intro P s w ws items rest hw hr hs hrsp hcmd hin hlen
  have htake := run_takes_operand hr hs hcmd hin hlen
  have hanswer := run_reserved_and_answer hw
    (Engine.withOperand_seq w items { s with cmdIn := ws, itemIn := rest }) hlen.ge hr hrsp
  refine ⟨responseWord s.coding.mode (Report.failure .illegalCommand) 0, rspErr_responseWord ..,
    rspErrinfo_responseWord .., rspOutLen_responseWord _ _ (Nat.zero_le _), ?_⟩
  obtain ⟨⟩ := s
  cases hs
  exact (run_add (M := core) 2 htake).trans hanswer

/-- Settles O27: each command's function takes the fields of its format out of an item and nothing else. -/
theorem bitsAboveTheFormatAreIgnored : Obligations.BitsAboveTheFormatAreIgnored := by
  intro P s w len
  refine ⟨fun xs ys h => ?_, fun xs ys h => ?_, fun xs ys => ?_, fun rs rs' ⟨hframed, _⟩ h => ?_⟩
  · have htake : itemSymbols (xs.take len) = itemSymbols (ys.take len) := by
      rw [itemSymbols_take, itemSymbols_take, h]
    simp only [exec_withOperand, Instr.len, commandResult_buildText, commandResult_encode, commandResult_load]
    rw [buildTextTree_congr htake, encodeResult_congr _ htake, loadResult_congr htake]
    exact ⟨rfl, rfl, rfl⟩
  · have htake : itemBits (xs.take len) = itemBits (ys.take len) := by
      rw [itemBits_take, itemBits_take, h]
    simp only [exec_withOperand, Instr.len, commandResult_decode, decodeResult_congr _ htake]
  · simp only [exec_withOperand, commandResult_save]
  · simp only [exec_withOperand, Instr.len, commandResult_loadCodes, List.take_length]
    rw [loadCodesResult_congr (fun r hr => (hframed r hr).left) h]

/-- Settles O4: every row is about closed words, and both of its sides compute to the same value. -/
theorem workedEncodings : Obligations.WorkedEncodings := by
  exact ⟨rfl, rfl, rfl, rfl, rfl, rfl, rfl, rfl, rfl, rfl, rfl, rfl, rfl, rfl, rfl, rfl, rfl, rfl, rfl,
    rfl, rfl⟩

end

section
/-! The frequency table of each build command: one canonical table with the counts of the text, or with the
pairs (40_tree_build rules R102, R103, R116, R117). -/

namespace Sys2Proof.Machine

variable {P : Params}

/-! ### Canonical memories and their entries -/

theorem Memory.nodup {β : Type} {m : Memory P β} (hm : Memory.wf m = true) : m.Nodup :=
  (Memory.symbols_nodup hm).of_map

/-- Equal entries make equal memories. -/
theorem Memory.eq_of_perm {β : Type} {m n : Memory P β} (hm : Memory.wf m = true) (hn : Memory.wf n = true)
    (h : m.Perm n) : m = n := by
  refine Memory.ext hm hn (fun a => Option.ext (fun v => ?_))
  rw [← Memory.mem_iff_read hm, ← Memory.mem_iff_read hn]
  exact h.mem_iff

/-- In canonical form the entries stand as their symbols do (R33). -/
theorem Memory.lt_iff_of_getElem? {β : Type} {m : Memory P β} (hm : Memory.wf m = true) {i j : Nat}
    {e f : Symbol P × β} (hi : m[i]? = some e) (hj : m[j]? = some f) : i < j ↔ e.1 < f.1 := by
  rw [Memory.wf_iff, List.pairwise_iff_getElem] at hm
  obtain ⟨hilt, rfl⟩ := List.getElem?_eq_some_iff.mp hi
  obtain ⟨hjlt, rfl⟩ := List.getElem?_eq_some_iff.mp hj
  refine ⟨hm i j hilt hjlt, fun hlt => ?_⟩
  obtain h | rfl | h := Nat.lt_trichotomy i j
  · exact h
  · exact absurd hlt (BitVec.lt_irrefl _)
  · exact absurd (BitVec.lt_trans hlt (hm j i hjlt hilt h)) (BitVec.lt_irrefl _)

/-- A count that is not 0 is stored (R33). -/
theorem read_of_countOf_ne_zero {ft : FreqTable P} {a : Symbol P} (h : countOf ft a ≠ 0) :
    Memory.read ft a = some (countOf ft a) := by
  unfold countOf at *
  cases hread : Memory.read ft a with
  | none => simp [hread] at h
  | some n => rfl

/-- A table without zero counts lists a symbol exactly when its count is not 0 (R33). -/
theorem mem_iff_countOf {ft : FreqTable P} (hwf : Memory.wf ft = true) (hpos : ∀ e ∈ ft, e.2 ≠ 0)
    (a : Symbol P) (n : Nat) : (a, n) ∈ ft ↔ n = countOf ft a ∧ n ≠ 0 := by
  constructor
  · intro h
    have hread := Memory.read_of_mem hwf h
    exact ⟨by simp [countOf, hread], hpos _ h⟩
  · rintro ⟨rfl, hne⟩
    exact Memory.mem_of_read (read_of_countOf_ne_zero hne)

/-! ### The table of a text (R102) -/

/-- BUILD_TEXT's table lists the symbols of the text with their numbers of occurrences. -/
theorem mem_countText_iff (text : List (Symbol P)) (a : Symbol P) (n : Nat) :
    (a, n) ∈ countText text [] ↔ n = text.count a ∧ n ≠ 0 := by
  rw [mem_iff_countOf (countText_wf text [] rfl) (countText_pos text [] (by simp)), countOf_countText,
    countOf_nil, Nat.zero_add]

theorem countText_perm (text : List (Symbol P)) :
    (countText text []).Perm (text.dedup.map (fun a => (a, text.count a))) := by
  have hnodup : (text.dedup.map (fun a => (a, text.count a))).Nodup :=
    text.nodup_dedup.map (fun _ _ h => congrArg Prod.fst h)
  refine (List.perm_ext_iff_of_nodup (Memory.nodup (countText_wf text [] rfl)) hnodup).mpr ?_
  rintro ⟨a, n⟩
  rw [mem_countText_iff]
  constructor
  · rintro ⟨rfl, hne⟩
    exact List.mem_map.mpr ⟨a, List.mem_dedup.mpr (List.count_eq_zero.not_left.mp hne), rfl⟩
  · intro h
    obtain ⟨b, hb, hpair⟩ := List.mem_map.mp h
    cases hpair
    exact ⟨rfl, List.count_eq_zero.not_left.mpr (List.mem_dedup.mp hb)⟩

/-- The counts of a text add up to its length. -/
theorem sum_countText (text : List (Symbol P)) :
    ((countText text []).map (fun e => e.2)).sum = text.length := by
  rw [((countText_perm text).map _).sum_eq, List.map_map]
  exact text.sum_map_count_dedup_eq_length

theorem countText_ne_nil {text : List (Symbol P)} (h : text ≠ []) : countText text [] ≠ [] := by
  intro hnil
  have hsum := sum_countText text
  rw [hnil] at hsum
  exact h (List.eq_nil_of_length_eq_zero hsum.symm)

/-! ### The table of the pairs (R103) -/

theorem pairs_nodup {xs : List (InItem P)} (h : pairsOk xs) : (xs.map itemPair).Nodup := by
  obtain ⟨-, hsyms⟩ := h
  refine List.Nodup.of_map Prod.fst ?_
  rw [List.map_map]
  exact hsyms

theorem pairsOk_congr {xs ys : List (InItem P)} (h : xs.Perm ys) : pairsOk xs ↔ pairsOk ys := by
  have hsyms : (itemSymbols xs).Perm (itemSymbols ys) := h.map itemSymbol
  simp only [pairsOk, hsyms.nodup_iff, h.mem_iff]

/-- The entries the scan stores are the pairs. -/
theorem mem_of_fillPairs {xs : List (InItem P)} {ft : FreqTable P} (h : fillPairs xs [] = .ok ft)
    (e : Symbol P × Nat) : e ∈ ft ↔ e ∈ xs.map itemPair := by
  obtain ⟨hne, -, -, hcount, hrest, hwf⟩ := fillPairs_ok h
  have hread : ∀ x ∈ xs, Memory.read ft (itemSymbol x) = some (itemCount x) := by
    intro x hx
    have hstored := hne x hx
    rw [← hcount x hx] at hstored ⊢
    exact read_of_countOf_ne_zero hstored
  obtain ⟨a, n⟩ := e
  rw [Memory.mem_iff_read (hwf rfl), List.mem_map]
  constructor
  · intro han
    by_cases ha : a ∈ itemSymbols xs
    · obtain ⟨x, hx, rfl⟩ := List.mem_map.mp ha
      rw [hread x hx] at han
      cases han
      exact ⟨x, hx, rfl⟩
    · rw [hrest a ha] at han
      cases han
  · rintro ⟨x, hx, hpair⟩
    cases hpair
    exact hread x hx

/-- BUILD_FREQ's operand scan accepts only acceptable pairs, and stores them in a canonical table that holds
exactly them (R103, R116, R117). -/
theorem table_of_fillPairs {xs : List (InItem P)} {ft : FreqTable P} (h : fillPairs xs [] = .ok ft) :
    pairsOk xs ∧ Memory.wf ft = true ∧ ft.Perm (xs.map itemPair) := by
  obtain ⟨hne, hsyms, -, -, -, hwf⟩ := fillPairs_ok h
  have hok : pairsOk xs := ⟨hne, hsyms⟩
  exact ⟨hok, hwf rfl, (List.perm_ext_iff_of_nodup (Memory.nodup (hwf rfl)) (pairs_nodup hok)).mpr
    (mem_of_fillPairs h)⟩

/-- Acceptable pairs fill a table. -/
theorem fillPairs_of_pairsOk {xs : List (InItem P)} (h : pairsOk xs) :
    ∃ ft, fillPairs xs [] = .ok ft ∧ Memory.wf ft = true ∧ ft.Perm (xs.map itemPair) := by
  obtain ⟨hne, hsyms⟩ := h
  obtain ⟨ft, hft⟩ := fillPairs_of_ok (ft := []) hne hsyms (by simp)
  obtain ⟨-, htable⟩ := table_of_fillPairs hft
  exact ⟨ft, hft, htable⟩

/-- There is one canonical table of the pairs, so the scan fills that one. -/
theorem fillPairs_eq_of_perm {xs : List (InItem P)} {ft : FreqTable P} (hok : pairsOk xs)
    (hwf : Memory.wf ft = true) (hperm : ft.Perm (xs.map itemPair)) : fillPairs xs [] = .ok ft := by
  obtain ⟨ft', h, hwf', hperm'⟩ := fillPairs_of_pairsOk hok
  rw [h, Memory.eq_of_perm hwf' hwf (hperm'.trans hperm.symm)]

/-- Other pairs are refused (R116, R117). -/
theorem fillPairs_of_not_pairsOk {xs : List (InItem P)} (h : ¬ pairsOk xs) :
    fillPairs xs [] = .error .invalidOperand := by
  cases hf : fillPairs xs [] with
  | ok ft =>
    obtain ⟨hok, -⟩ := table_of_fillPairs hf
    exact absurd hok h
  | error e => rw [fillPairs_error hf]

/-- The scan's outcome does not turn on the order of the pairs (R111). -/
theorem fillPairs_congr {xs ys : List (InItem P)} (h : xs.Perm ys) : fillPairs xs [] = fillPairs ys [] := by
  by_cases hx : pairsOk xs
  · obtain ⟨ft, hft, hwf, hperm⟩ := fillPairs_of_pairsOk hx
    rw [hft, fillPairs_eq_of_perm ((pairsOk_congr h).mp hx) hwf (hperm.trans (h.map _))]
  · rw [fillPairs_of_not_pairsOk hx, fillPairs_of_not_pairsOk (mt (pairsOk_congr h).mpr hx)]

end Sys2Proof.Machine
end

section
/-! The merge of BUILD (40_tree_build rules R105 to R109, R118): keys stay unique, the total weight stays the
same, and the result is what `MergesTo` leads to. -/

namespace Sys2Proof.Machine

variable {P : Params}

@[simp] theorem nodeWeight_leaf (s : Symbol P) (w : Nat) : nodeWeight (.leaf s w) = w := rfl

@[simp] theorem nodeWeight_internal (w : Nat) (l r : Node P) : nodeWeight (.internal w l r) = w := rfl

/-! ### One turn -/

/-- A turn takes the two nodes with the least keys, the lesser first (R106, R107, R109). -/
theorem mergeStep_takes_least {pq : List (Entry P)} (n : Nat) (hd : (pq.map Entry.seq).Nodup)
    (h2 : 2 ≤ pq.length) :
    ∃ a b rest, pq.Perm (a :: b :: rest) ∧ a.before b = true ∧
      (∀ e ∈ rest, a.before e = true ∧ b.before e = true) ∧
      mergeStep pq n =
        if P.weightMax < nodeWeight a.node + nodeWeight b.node then .error .capacity
        else .ok (⟨n, .internal (nodeWeight a.node + nodeWeight b.node) a.node b.node⟩ :: rest) := by
  obtain ⟨a, b, pq1, rest, ha, hb, hperm, hstep⟩ := mergeStep_cases n h2
  have hd1 : (pq1.map Entry.seq).Nodup := (((popMin_perm ha).map Entry.seq).nodup_iff.mp hd).of_cons
  have haleast := popMin_least hd ha
  have hbleast := popMin_least hd1 hb
  have hmem : ∀ e, e ∈ pq1 ↔ e ∈ b :: rest := fun _ => (popMin_perm hb).mem_iff
  exact ⟨a, b, rest, hperm, haleast b ((hmem b).mpr List.mem_cons_self),
    fun e he => ⟨haleast e ((hmem e).mpr (List.mem_cons_of_mem b he)), hbleast e he⟩, hstep⟩

/-- The keys of PQ are unique, and `NSEQ = n` is a sequence number no node has yet (R105, R106). -/
def KeysBelow (pq : List (Entry P)) (n : Nat) : Prop :=
  (pq.map Entry.seq).Nodup ∧ ∀ e ∈ pq, e.seq < n

/-- The weights of the nodes in PQ, added up (R107). -/
def totalWeight (pq : List (Entry P)) : Nat := (pq.map (fun e => nodeWeight e.node)).sum

theorem KeysBelow.merge {pq rest : List (Entry P)} {a b : Entry P} {n : Nat} (h : KeysBelow pq n)
    (hperm : pq.Perm (a :: b :: rest)) (t : Node P) : KeysBelow (⟨n, t⟩ :: rest) (n + 1) := by
  obtain ⟨hd, hlt⟩ := h
  have hdrest : (rest.map Entry.seq).Nodup := ((hperm.map Entry.seq).nodup_iff.mp hd).of_cons.of_cons
  have hrest : ∀ e ∈ rest, e.seq < n := fun e he => hlt e (hperm.mem_iff.mpr (by simp [he]))
  refine ⟨List.nodup_cons.mpr ⟨fun hn => ?_, hdrest⟩, List.forall_mem_cons.mpr ⟨n.lt_succ_self, ?_⟩⟩
  · obtain ⟨e, he, hseq⟩ := List.mem_map.mp hn
    exact absurd hseq (hrest e he).ne
  · exact fun e he => (hrest e he).trans n.lt_succ_self

theorem totalWeight_of_perm {pq rest : List (Entry P)} {a b : Entry P} (hperm : pq.Perm (a :: b :: rest)) :
    totalWeight pq = nodeWeight a.node + nodeWeight b.node + totalWeight rest := by
  unfold totalWeight
  rw [(hperm.map _).sum_eq]
  simp [Nat.add_assoc]

/-- The merged node weighs what its children weighed. -/
theorem totalWeight_merge {pq rest : List (Entry P)} {a b : Entry P} (n : Nat)
    (hperm : pq.Perm (a :: b :: rest)) :
    totalWeight (⟨n, .internal (nodeWeight a.node + nodeWeight b.node) a.node b.node⟩ :: rest) =
      totalWeight pq := by
  rw [totalWeight_of_perm hperm]
  simp [totalWeight]

/-! ### `k` turns -/

/-- Turns that succeed: the first of them, and the others. -/
theorem mergeTimes_succ_ok {k n : Nat} {pq pq' : List (Entry P)} (h : mergeTimes (k + 1) pq n = .ok pq') :
    ∃ pq1, mergeStep pq n = .ok pq1 ∧ mergeTimes k pq1 (n + 1) = .ok pq' := by
  rw [mergeTimes_succ] at h
  cases hs : mergeStep pq n with
  | error e =>
    rw [hs] at h
    cases h
  | ok pq1 =>
    rw [hs] at h
    exact ⟨pq1, rfl, h⟩

/-- After `k` turns PQ has `k` nodes less, with unique keys and the same total weight (R106, R107). -/
theorem mergeTimes_keeps_keys {k n : Nat} {pq pq' : List (Entry P)} (hkeys : KeysBelow pq n)
    (hk : k < pq.length) (h : mergeTimes k pq n = .ok pq') :
    pq'.length + k = pq.length ∧ KeysBelow pq' (n + k) ∧ totalWeight pq' = totalWeight pq := by
  induction k generalizing pq n with
  | zero =>
    cases h
    exact ⟨rfl, hkeys, rfl⟩
  | succ k ih =>
    obtain ⟨pq1, hs, hrest⟩ := mergeTimes_succ_ok h
    obtain ⟨a, b, rest, hperm, -, rfl⟩ := mergeStep_ok (by omega) hs
    have hlen := hperm.length_eq
    simp only [List.length_cons] at hlen
    obtain ⟨hlen', hkeys', hweight'⟩ := ih (hkeys.merge hperm _) (by rw [List.length_cons]; omega) hrest
    rw [List.length_cons] at hlen'
    refine ⟨by omega, ?_, hweight'.trans (totalWeight_merge n hperm)⟩
    rwa [Nat.add_right_comm] at hkeys'

/-- As many turns as leave one node lead to that node (R107). -/
theorem mergeTimes_mergesTo {k n : Nat} {pq pq' : List (Entry P)} (hkeys : KeysBelow pq n)
    (hlen : pq.length = k + 1) (h : mergeTimes k pq n = .ok pq') :
    ∃ e, pq' = [e] ∧ MergesTo pq n e.node := by
  induction k generalizing pq n with
  | zero =>
    cases h
    obtain ⟨e, rfl⟩ := List.length_eq_one_iff.mp hlen
    exact ⟨e, rfl, .root e.seq n e.node⟩
  | succ k ih =>
    obtain ⟨pq1, hs, hrest⟩ := mergeTimes_succ_ok h
    obtain ⟨a, b, rest, hperm, hab, hleast, hstep⟩ := mergeStep_takes_least n hkeys.left (by omega)
    rw [hstep] at hs
    split at hs
    · cases hs
    · cases hs
      have hlen' := hperm.length_eq
      simp only [List.length_cons] at hlen'
      obtain ⟨e, rfl, hmerges⟩ := ih (hkeys.merge hperm _) (by rw [List.length_cons]; omega) hrest
      exact ⟨e, rfl, .turn pq rest a b n e.node hperm hab (fun f hf => (hleast f hf).right) hmerges⟩

/-- Two nodes of PQ weigh no more than all of them, so nothing overflows when the total fits (R118). -/
theorem mergeTimes_of_fits {k n : Nat} {pq : List (Entry P)} (hk : k < pq.length)
    (hfits : totalWeight pq ≤ P.weightMax) : ∃ pq', mergeTimes k pq n = .ok pq' := by
  induction k generalizing pq n with
  | zero => exact ⟨pq, rfl⟩
  | succ k ih =>
    obtain ⟨a, b, _, rest, _, _, hperm, hstep⟩ := mergeStep_cases n (show 2 ≤ pq.length by omega)
    have hsum := totalWeight_of_perm hperm
    have hlen := hperm.length_eq
    simp only [List.length_cons] at hlen
    rw [mergeTimes_succ, hstep, if_neg (by omega)]
    exact ih (by rw [List.length_cons]; omega) ((totalWeight_merge n hperm).trans_le hfits)

/-! ### What a merge leads to -/

section
variable {pq : List (Entry P)} {n : Nat} {t : Node P}

/-- The merge keeps the leaves (R25, R107). -/
theorem MergesTo.leafPairs_perm (h : MergesTo pq n t) :
    (leafPairs t).Perm (pq.flatMap (fun e => leafPairs e.node)) := by
  induction h with
  | root q n t => simp
  | turn pq rest a b n t two _ _ _ ih =>
    refine ih.trans (List.Perm.trans ?_ (two.flatMap_right _).symm)
    simp [leafPairs]

/-- Every node the merge makes weighs the sum of its children (R25, R107). -/
theorem MergesTo.weights_add (h : MergesTo pq n t) (hpq : ∀ e ∈ pq, weightsAdd e.node = true) :
    weightsAdd t = true := by
  induction h with
  | root q n t => exact hpq _ List.mem_cons_self
  | turn pq rest a b n t two _ _ _ ih =>
    have hold : ∀ e ∈ a :: b :: rest, weightsAdd e.node = true := fun e he =>
      hpq e (two.mem_iff.mpr he)
    obtain ⟨ha, hb, hrest⟩ : _ ∧ _ ∧ _ := by simpa only [List.forall_mem_cons] using hold
    exact ih (List.forall_mem_cons.mpr ⟨by simp [weightsAdd, ha, hb], hrest⟩)

/-- The root weighs what all nodes weighed (R107). -/
theorem MergesTo.nodeWeight_eq (h : MergesTo pq n t) : nodeWeight t = totalWeight pq := by
  induction h with
  | root q n t => simp [totalWeight]
  | turn pq rest a b n t two _ _ _ ih => rw [ih, totalWeight_merge n two]

end

end Sys2Proof.Machine
end

section
/-! BUILD from its leaves to its root, and when it fails (40_tree_build rules R105 to R110, R118). -/

namespace Sys2Proof.Machine

variable {P : Params}

/-! ### PQ as phase 2 finds it (R105) -/

theorem leafEntries_getElem? (i j : Nat) (ft : FreqTable P) :
    (leafEntries i ft)[j]? = ft[j]?.map (fun p => ⟨i + j, .leaf p.1 p.2⟩) := by
  induction ft generalizing i j with
  | nil => rfl
  | cons p ft ih =>
    cases j with
    | zero => rfl
    | succ j => simp [leafEntries, ih, Nat.add_right_comm, Nat.add_assoc]

theorem leafEntries_keysBelow (ft : FreqTable P) : KeysBelow (leafEntries 0 ft) ft.length := by
  refine ⟨?_, fun e he => ?_⟩
  · rw [leafEntries_seqs]
    exact List.nodup_range'
  · have hseq : e.seq ∈ List.range' 0 ft.length := leafEntries_seqs 0 ft ▸ List.mem_map_of_mem he
    simpa using hseq

theorem leafEntries_leafPairs (i : Nat) (ft : FreqTable P) :
    (leafEntries i ft).flatMap (fun e => leafPairs e.node) = ft := by
  induction ft generalizing i with
  | nil => rfl
  | cons p ft ih => simp [leafEntries, leafPairs, ih]

theorem leafEntries_totalWeight (i : Nat) (ft : FreqTable P) :
    totalWeight (leafEntries i ft) = (ft.map (fun e => e.2)).sum := by
  unfold totalWeight
  induction ft generalizing i with
  | nil => rfl
  | cons p ft ih => simp [leafEntries, ih]

theorem leafEntries_weightsAdd {i : Nat} {ft : FreqTable P} :
    ∀ e ∈ leafEntries i ft, weightsAdd e.node = true := by
  intro e he
  obtain ⟨j, p, -, rfl⟩ := mem_leafEntries he
  rfl

/-- The leaves' sequence numbers stand as their symbols do (R105). -/
theorem leafEntries_seq_lt_iff {ft : FreqTable P} (hwf : Memory.wf ft = true) {e f : Entry P} {a b : Symbol P}
    {v w : Nat} (he : e ∈ leafEntries 0 ft) (hf : f ∈ leafEntries 0 ft) (hea : e.node = .leaf a v)
    (hfb : f.node = .leaf b w) : e.seq < f.seq ↔ a < b := by
  obtain ⟨i, p, hp, rfl⟩ := mem_leafEntries he
  obtain ⟨j, q, hq, rfl⟩ := mem_leafEntries hf
  cases hea
  cases hfb
  simpa using Memory.lt_iff_of_getElem? hwf hp hq

/-- A leaf of PQ weighs its symbol's count (R105). -/
theorem countOf_of_mem_leafEntries {ft : FreqTable P} (hwf : Memory.wf ft = true) {e : Entry P} {a : Symbol P}
    {v : Nat} (he : e ∈ leafEntries 0 ft) (hea : e.node = .leaf a v) : countOf ft a = v := by
  obtain ⟨i, p, hp, rfl⟩ := mem_leafEntries he
  cases hea
  have hread := Memory.read_of_mem hwf (List.mem_of_getElem? hp)
  simp [countOf, hread]

/-! ### BUILD -/

/-- When the turns of BUILD succeed, one node is left, the merge leads to it, and BUILD returns it (R107). -/
theorem build_of_mergeTimes_ok {ft : FreqTable P} {pq : List (Entry P)} (hne : ft ≠ [])
    (h : mergeTimes (ft.length - 1) (leafEntries 0 ft) ft.length = .ok pq) :
    ∃ t, build ft = .ok t ∧ MergesTo (leafEntries 0 ft) ft.length t := by
  have hpos := List.length_pos_of_ne_nil hne
  obtain ⟨e, rfl, hmerges⟩ :=
    mergeTimes_mergesTo (leafEntries_keysBelow ft) (by rw [leafEntries_length]; omega) h
  exact ⟨e.node, by simp [build, h], hmerges⟩

/-- BUILD of a table ends with the tree its leaves merge to, or with CapacityError (R107, R118). -/
theorem build_cases {ft : FreqTable P} (hne : ft ≠ []) :
    (∃ t, build ft = .ok t ∧ MergesTo (leafEntries 0 ft) ft.length t) ∨ build ft = .error .capacity := by
  have hpos := List.length_pos_of_ne_nil hne
  cases hm : mergeTimes (ft.length - 1) (leafEntries 0 ft) ft.length with
  | ok pq => exact .inl (build_of_mergeTimes_ok hne hm)
  | error e =>
    obtain rfl := mergeTimes_error (by rw [leafEntries_length]; omega) hm
    exact .inr (by simp [build, hm])

theorem build_mergesTo {ft : FreqTable P} {t : Node P} (h : build ft = .ok t) :
    MergesTo (leafEntries 0 ft) ft.length t := by
  have hne : ft ≠ [] := by
    rintro rfl
    cases h
  obtain ⟨t', ht', hmerges⟩ | herr := build_cases hne
  · rw [h] at ht'
    cases ht'
    exact hmerges
  · rw [h] at herr
    cases herr

theorem build_leafPairs {ft : FreqTable P} {t : Node P} (h : build ft = .ok t) : (leafPairs t).Perm ft := by
  have hleaves := (build_mergesTo h).leafPairs_perm
  rwa [leafEntries_leafPairs] at hleaves

theorem build_nodeWeight {ft : FreqTable P} {t : Node P} (h : build ft = .ok t) :
    nodeWeight t = (ft.map (fun e => e.2)).sum := by
  rw [(build_mergesTo h).nodeWeight_eq, leafEntries_totalWeight]

/-- `n` leaves make `2n − 1` nodes (R25, R107). -/
theorem build_nodeCount {ft : FreqTable P} {t : Node P} (h : build ft = .ok t) :
    nodeCount t = 2 * ft.length - 1 := by
  have hcount := nodeCount_succ t
  rw [leafSymbols_eq_map, List.length_map, (build_leafPairs h).length_eq] at hcount
  omega

/-- BUILD succeeds when the sum of all counts fits (R107, R118). -/
theorem build_of_fits {ft : FreqTable P} (hne : ft ≠ [])
    (hfits : (ft.map (fun e => e.2)).sum ≤ P.weightMax) : ∃ t, build ft = .ok t := by
  have hpos := List.length_pos_of_ne_nil hne
  obtain ⟨pq, hpq⟩ := mergeTimes_of_fits (k := ft.length - 1) (n := ft.length) (pq := leafEntries 0 ft)
    (by rw [leafEntries_length]; omega) ((leafEntries_totalWeight 0 ft).trans_le hfits)
  obtain ⟨t, ht, -⟩ := build_of_mergeTimes_ok hne hpq
  exact ⟨t, ht⟩

/-- Every merged weight is at most the root's, so BUILD overflows exactly when the sum of all counts does
(R118). -/
theorem build_capacity_iff {ft : FreqTable P} (hne : ft ≠ []) (hft : ∀ e ∈ ft, e.2 ≤ P.weightMax) :
    build ft = .error .capacity ↔ P.weightMax < (ft.map (fun e => e.2)).sum := by
  constructor
  · intro h
    by_contra hfits
    obtain ⟨t, ht⟩ := build_of_fits hne (not_lt.mp hfits)
    rw [h] at ht
    cases ht
  · intro hover
    obtain ⟨t, ht, -⟩ | herr := build_cases hne
    · obtain ⟨-, -, hroot⟩ := build_ok hft ht
      rw [build_nodeWeight ht] at hroot
      exact absurd hover (not_lt.mpr hroot)
    · exact herr

end Sys2Proof.Machine
end

section
/-! The two build commands, from the operand to the outcome (40_tree_build rules R102 to R104, R115 to R118). -/

namespace Sys2Proof.Machine

variable {P : Params}

/-! ### The end of a command -/

@[simp] theorem installResult_of_ok (t : Node P) :
    installResult (.ok t) = .ok { coding := installTree t, out := [], part := false } := rfl

@[simp] theorem installResult_of_error (e : Error P) : installResult (.error e) = .error e := rfl

theorem exec_buildText (len : Nat) (s : Engine P) :
    exec (.buildText len) ⟨P, s⟩ = finish s (installResult (buildTextTree (s.operand len))) :=
  exec_eq (.buildText len) s

theorem exec_buildFreq (len : Nat) (s : Engine P) :
    exec (.buildFreq len) ⟨P, s⟩ = finish s (installResult (buildFreqTree (s.operand len))) :=
  exec_eq (.buildFreq len) s

/-- The error whose kind and symbol `raise` writes to the status fields (R214). -/
def ErrorKind.raised : ErrorKind → Symbol P → Error P
  | .emptyInput, _ => .emptyInput
  | .unknownSymbol, a => .unknownSymbol a
  | .decodePrecondition, _ => .decodePrecondition
  | .malformedBitstream, _ => .malformedBitstream
  | .malformedTreeData, _ => .malformedTreeData
  | .invalidOperand, _ => .invalidOperand
  | .capacity, _ => .capacity
  | .illegalCommand, _ => .illegalCommand

theorem Error.raised_kind_info (e : Error P) : e.kind.raised e.info = e := by
  cases e <;> rfl

/-- The status fields tell which error was raised (R31, R214). -/
theorem Report.failure_inj {e e' : Error P} : Report.failure e = Report.failure e' ↔ e = e' := by
  refine ⟨fun h => ?_, congrArg _⟩
  have hkind : e.kind = e'.kind := Option.some.inj (congrArg Report.err h)
  have hinfo : e.info = e'.info := congrArg Report.errinfo h
  rw [← e.raised_kind_info, hkind, hinfo, e'.raised_kind_info]

/-- A command raises an error exactly when its function does. -/
theorem finish_eq_raise_iff {s : Engine P} {r : Except (Error P) (Done P)} {e : Error P} :
    finish s r = .next ⟨P, s.raise e⟩ ↔ r = .error e := by
  constructor
  · intro h
    cases r with
    | ok d =>
      rw [finish_ok, next_inj] at h
      cases congrArg (fun t => t.report.err) h
    | error e' =>
      rw [finish_error, next_inj] at h
      rw [Report.failure_inj.mp (congrArg Engine.report h)]
  · rintro rfl
    rfl

theorem installResult_eq_error_iff {r : Except (Error P) (Node P)} {e : Error P} :
    installResult r = .error e ↔ r = .error e :=
  ⟨installResult_error, fun h => by rw [h, installResult_of_error]⟩

/-- Two outcomes of one function from two states: the same status fields and result items, and on success the
same coding state (R54, R214). -/
theorem finish_agrees {s t : Engine P} (s' : Engine P) {r : Except (Error P) (Done P)}
    (h : finish s r = .next ⟨P, t⟩) :
    ∃ t', finish s' r = .next ⟨P, t'⟩ ∧ t'.report = t.report ∧ t'.staged = t.staged ∧
      (t.report.err = none → t'.coding = t.coding) := by
  cases r with
  | ok d =>
    obtain rfl := next_inj.mp h
    exact ⟨_, rfl, rfl, rfl, fun _ => rfl⟩
  | error e =>
    obtain rfl := next_inj.mp h
    exact ⟨_, rfl, rfl, rfl, fun herr => (by cases herr)⟩

/-! ### The tree of the operand -/

@[simp] theorem buildTextTree_nil : buildTextTree ([] : List (InItem P)) = .error .emptyInput := rfl

@[simp] theorem buildFreqTree_nil : buildFreqTree ([] : List (InItem P)) = .error .emptyInput := rfl

theorem buildTextTree_of_ne_nil {xs : List (InItem P)} (hx : xs ≠ []) :
    buildTextTree xs = build (countText (itemSymbols xs) []) :=
  if_neg hx

theorem buildFreqTree_of_fillPairs {xs : List (InItem P)} {ft : FreqTable P} (hx : xs ≠ [])
    (hft : fillPairs xs [] = .ok ft) : buildFreqTree xs = build ft := by
  simp [buildFreqTree, hx, hft]

theorem buildFreqTree_of_not_pairsOk {xs : List (InItem P)} (hx : xs ≠ []) (h : ¬ pairsOk xs) :
    buildFreqTree xs = .error .invalidOperand := by
  simp [buildFreqTree, hx, fillPairs_of_not_pairsOk h]

/-- The order of the pairs does not matter (R111). -/
theorem buildFreqTree_congr {xs ys : List (InItem P)} (h : xs.Perm ys) :
    buildFreqTree xs = buildFreqTree ys := by
  have hnil : xs = [] ↔ ys = [] := ⟨fun hx => (hx ▸ h).nil_eq.symm, fun hy => (hy ▸ h).eq_nil⟩
  simp only [buildFreqTree, hnil, fillPairs_congr h]

theorem countText_itemSymbols_ne_nil {xs : List (InItem P)} (hx : xs ≠ []) :
    countText (itemSymbols xs) [] ≠ [] :=
  countText_ne_nil (mt itemSymbols_eq_nil_iff.mp hx)

/-- The scan of a non-empty operand leaves a non-empty table (R103). -/
theorem table_ne_nil {xs : List (InItem P)} {ft : FreqTable P} (hx : xs ≠ [])
    (hperm : ft.Perm (xs.map itemPair)) : ft ≠ [] := by
  rintro rfl
  exact hx (List.map_eq_nil_iff.mp hperm.nil_eq.symm)

/-- The counts of the table add up to the pairs' (R103, R118). -/
theorem sum_table {xs : List (InItem P)} {ft : FreqTable P} (hperm : ft.Perm (xs.map itemPair)) :
    (ft.map (fun e => e.2)).sum = countSum xs := by
  rw [(hperm.map _).sum_eq, List.map_map]
  rfl

/-- No operand but the empty one is EmptyInputError (R115). -/
theorem buildTextTree_ne_emptyInput {xs : List (InItem P)} (hx : xs ≠ []) :
    buildTextTree xs ≠ .error .emptyInput := by
  rw [buildTextTree_of_ne_nil hx]
  obtain ⟨t, ht, -⟩ | herr := build_cases (countText_itemSymbols_ne_nil hx)
  · simp [ht]
  · simp [herr]

theorem buildFreqTree_ne_emptyInput {xs : List (InItem P)} (hx : xs ≠ []) :
    buildFreqTree xs ≠ .error .emptyInput := by
  by_cases hok : pairsOk xs
  · obtain ⟨ft, hft, -, hperm⟩ := fillPairs_of_pairsOk hok
    rw [buildFreqTree_of_fillPairs hx hft]
    obtain ⟨t, ht, -⟩ | herr := build_cases (table_ne_nil hx hperm)
    · simp [ht]
    · simp [herr]
  · simp [buildFreqTree_of_not_pairsOk hx hok]

/-- Items with the symbols of a text that is not empty are not none. -/
theorem ne_nil_of_symbols {xs ys : List (InItem P)} (hx : xs ≠ [])
    (hsyms : ∀ a, a ∈ itemSymbols ys ↔ a ∈ itemSymbols xs) : ys ≠ [] := by
  rintro rfl
  obtain ⟨x, hmem⟩ := List.exists_mem_of_ne_nil xs hx
  exact absurd ((hsyms _).mpr (List.mem_map_of_mem hmem)) List.not_mem_nil

/-- A text has the table of the pairs (symbol, number of occurrences) of its symbols (R111). -/
theorem fillPairs_of_occurrences {text : List (Symbol P)} {ys : List (InItem P)}
    (hnodup : (itemSymbols ys).Nodup) (hsyms : ∀ a, a ∈ itemSymbols ys ↔ a ∈ text)
    (hcounts : ∀ y ∈ ys, itemCount y = text.count (itemSymbol y)) :
    fillPairs ys [] = .ok (countText text []) := by
  have hmem : ∀ y ∈ ys, itemSymbol y ∈ text := fun y hy => (hsyms _).mp (List.mem_map_of_mem hy)
  have hok : pairsOk ys := by
    refine ⟨fun y hy => ?_, hnodup⟩
    rw [hcounts y hy]
    exact List.count_eq_zero.not_left.mpr (hmem y hy)
  have hwf := countText_wf text [] rfl
  refine fillPairs_eq_of_perm hok hwf
    ((List.perm_ext_iff_of_nodup (Memory.nodup hwf) (pairs_nodup hok)).mpr ?_)
  rintro ⟨a, n⟩
  rw [mem_countText_iff, List.mem_map]
  constructor
  · rintro ⟨rfl, hne⟩
    obtain ⟨y, hy, rfl⟩ := List.mem_map.mp ((hsyms a).mpr (List.count_eq_zero.not_left.mp hne))
    exact ⟨y, hy, Prod.ext rfl (hcounts y hy)⟩
  · rintro ⟨y, hy, hpair⟩
    cases hpair
    exact ⟨hcounts y hy, hok.left y hy⟩

/-- A text of one distinct symbol has a table of one entry (R108). -/
theorem countText_replicate {n : Nat} (a : Symbol P) (hn : n ≠ 0) :
    countText (List.replicate n a) [] = [(a, n)] := by
  refine Memory.eq_of_perm (countText_wf _ [] rfl) rfl ((countText_perm _).trans ?_)
  rw [List.replicate_dedup hn]
  simp

end Sys2Proof.Machine
end

section
/-! The statements about BUILD and the two build commands (40_tree_build), and what the installing commands
read. -/

open Sys2Proof Sys2Proof.Machine

/-- Settles O28: the functions of the four commands have no argument but the operand. -/
theorem installingCommandsReadOnlyTheirOperand : Obligations.InstallingCommandsReadOnlyTheirOperand := by
  intro P i s s' t hi htaken h
  have hoperand : s'.operand i.len = s.operand i.len := congrArg (List.take i.len) htaken
  have hresult : commandResult i s'.coding (s'.operand i.len) = commandResult i s.coding (s.operand i.len) := by
    rw [hoperand]
    obtain ⟨len, rfl | rfl | rfl | rfl⟩ := hi <;> rfl
  rw [exec_eq, hresult]
  rw [exec_eq] at h
  exact finish_agrees s' h

/-- Settles O31: the counts add up to the length of the text, which fits, so the merge of the counted table
succeeds and keeps its leaves. -/
theorem buildTextInstallsTheCountedTree : Obligations.BuildTextInstallsTheCountedTree := by
  intro P len s hP hne hlen
  have htext : (itemSymbols (s.operand len)).length = (s.operand len).length := List.length_map _
  have hwf := countText_wf (itemSymbols (s.operand len)) [] rfl
  have hsum := (sum_countText (itemSymbols (s.operand len))).trans htext
  have hfits := hlen.trans hP.lenMax_le
  obtain ⟨t, ht⟩ := build_of_fits (countText_itemSymbols_ne_nil hne) (hsum.trans_le hfits)
  have htree := (buildTextTree_of_ne_nil hne).trans ht
  refine ⟨countText (itemSymbols (s.operand len)) [], t, hwf, countText_pos _ [] (by simp), fun a => ?_, ht, ?_,
    buildTextTree_treeOk hP hlen htree, (build_nodeWeight ht).trans hsum, fun a n => ?_⟩
  · rw [countOf_countText, countOf_nil, Nat.zero_add]
  · rw [exec_buildText, htree, installResult_of_ok, finish_ok]
  · rw [(build_leafPairs ht).mem_iff, mem_countText_iff]

/-- Settles O32: the scan stores the pairs in the one table that holds them, and as the counts fit, the merge
succeeds and keeps its leaves. -/
theorem buildFreqInstallsTheTreeOfThePairs : Obligations.BuildFreqInstallsTheTreeOfThePairs := by
  intro P len s hne hok hfits
  obtain ⟨ft, hft, hwf, hperm⟩ := fillPairs_of_pairsOk hok
  have hsum := sum_table hperm
  obtain ⟨t, ht⟩ := build_of_fits (table_ne_nil hne hperm) (hsum.trans_le hfits)
  have htree := (buildFreqTree_of_fillPairs hne hft).trans ht
  refine ⟨ft, t, hwf, hperm, ht, ?_, buildFreqTree_treeOk htree, (build_nodeWeight ht).trans hsum,
    (build_leafPairs ht).trans hperm⟩
  rw [exec_buildFreq, htree, installResult_of_ok, finish_ok]

/-- Settles O33: the empty operand is tested first, and behind that test the scan gives InvalidOperandError and
the merge CapacityError only. -/
theorem emptyBuildIsEmptyInput : Obligations.EmptyBuildIsEmptyInput := by
  intro P len s
  simp only [exec_buildText, exec_buildFreq, ne_eq, finish_eq_raise_iff, installResult_eq_error_iff]
  refine ⟨fun h => ?_, fun hne => ⟨buildTextTree_ne_emptyInput hne, buildFreqTree_ne_emptyInput hne⟩⟩
  rw [h]
  exact ⟨buildTextTree_nil, buildFreqTree_nil⟩

/-- Settles O34: such pairs are not acceptable, and the scan accepts no others. -/
theorem buildFreqRefusesZeroCountsAndRepeats : Obligations.BuildFreqRefusesZeroCountsAndRepeats := by
  intro P len s before x after hx hbad
  have hnot : ¬ pairsOk (before ++ x :: after) := by
    rintro ⟨hne, hnodup⟩
    obtain hzero | hrepeat := hbad
    · exact hne x (by simp) hzero
    · rw [itemSymbols, List.map_append, List.map_cons, List.nodup_middle, List.nodup_cons] at hnodup
      exact hnodup.left (List.mem_append_left _ hrepeat)
  rw [exec_buildFreq, hx, buildFreqTree_of_not_pairsOk (by simp) hnot, installResult_of_error, finish_error]

/-- Settles O35: the scan passes, and the merge overflows exactly when the weight of the root would. -/
theorem buildFreqCapacityExactly : Obligations.BuildFreqCapacityExactly := by
  intro P len s hne hok
  obtain ⟨ft, hft, -, hperm⟩ := fillPairs_of_pairsOk hok
  rw [exec_buildFreq, finish_eq_raise_iff, installResult_eq_error_iff, buildFreqTree_of_fillPairs hne hft,
    build_capacity_iff (table_ne_nil hne hperm) (fillPairs_le_weightMax (by simp) hft), sum_table hperm]

/-- Settles O36: BUILD reads the table only, and permuted pairs, or a text and its occurrences, give one
table. -/
theorem buildDependsOnTheTableOnly : Obligations.BuildDependsOnTheTableOnly := by
  intro P
  refine ⟨fun s w xs ys hperm => ?_, fun s w xs ys hne hnodup hsyms hcounts => ?_⟩
  · simp only [exec_withOperand, Instr.len, List.take_length, commandResult_buildFreq, buildFreqTree_congr hperm]
  · have hys := ne_nil_of_symbols hne hsyms
    have htable := fillPairs_of_occurrences hnodup hsyms hcounts
    simp only [exec_withOperand, Instr.len, List.take_length, commandResult_buildText, commandResult_buildFreq,
      buildTextTree_of_ne_nil hne, buildFreqTree_of_fillPairs hys htable]

/-- Settles O37: two pops return the least key and the next. -/
theorem mergeTakesTheTwoLeastLeftFirst : Obligations.MergeTakesTheTwoLeastLeftFirst := by
  intro P pq n hd h2
  obtain ⟨a, b, rest, hperm, hab, hleast, hstep⟩ := mergeStep_takes_least n hd h2
  refine ⟨a, b, rest, hperm, hab, hleast, fun hfits => ⟨rest, ?_, List.Perm.refl rest⟩, fun hover => ?_⟩
  · rw [hstep, if_neg (not_lt.mpr hfits)]
  · rw [hstep, if_pos hover]

/-- Settles O38: the leaves are numbered along the table, which stands in symbol order, and a turn gives the
merged node a new number and the weight of its children. -/
theorem mergeStartsInSymbolOrderAndKeepsKeysUnique :
    Obligations.MergeStartsInSymbolOrderAndKeepsKeysUnique := by
  refine ⟨fun P ft hwf => ⟨leafEntries_length 0 ft, fun i a w hi => ?_, ?_⟩, fun P ft k pq hk h => ?_⟩
  · rw [leafEntries_getElem?, hi, Option.map_some, Nat.zero_add]
  · intro e he f hf a v b w hea hfb
    have horder := leafEntries_seq_lt_iff hwf he hf hea hfb
    refine ⟨countOf_of_mem_leafEntries hwf he hea, horder, fun hvw hab => ?_⟩
    rw [Entry.before_iff, hea, hfb]
    exact .inr ⟨hvw, horder.mpr hab⟩
  · obtain ⟨hlen, ⟨hnodup, hbelow⟩, hweight⟩ :=
      mergeTimes_keeps_keys (leafEntries_keysBelow ft) (by rwa [leafEntries_length]) h
    rw [leafEntries_length] at hlen
    exact ⟨by omega, hnodup, hbelow, hweight.trans (leafEntries_totalWeight 0 ft)⟩

/-- Settles O39: the turns of BUILD are turns of the relation, along which leaves and weights are kept. -/
theorem buildMergesTheLeaves : Obligations.BuildMergesTheLeaves := by
  intro P ft t h
  have hmerges := build_mergesTo h
  exact ⟨hmerges, build_nodeCount h, build_leafPairs h, hmerges.weights_add leafEntries_weightsAdd,
    build_nodeWeight h⟩

/-- Settles O40: the table has one entry, and BUILD of it makes no turn. -/
theorem oneSymbolGivesOneLeaf : Obligations.OneSymbolGivesOneLeaf := by
  intro P
  refine ⟨fun a n => rfl, fun len s a hne hall => ?_, fun len s x hx hcount => ?_⟩
  · have htext : itemSymbols (s.operand len) = List.replicate (s.operand len).length a :=
      List.map_eq_replicate_iff.mpr hall
    have hlen := List.length_pos_of_ne_nil hne
    rw [exec_buildText, buildTextTree_of_ne_nil hne, htext, countText_replicate a hlen.ne']
    rfl
  · have htable : fillPairs [x] [] = .ok [itemPair x] :=
      fillPairs_eq_of_perm (by simp [pairsOk, itemSymbols, hcount]) rfl (List.Perm.refl _)
    rw [exec_buildFreq, hx, buildFreqTree_of_fillPairs (List.cons_ne_nil x []) htable]
    rfl

/-- Settles O42: the operand is closed, so its tree, the tree's book and its string are computed. -/
theorem textbookTree : Obligations.TextbookTree := by
  intro s
  exact ⟨_, rfl, rfl, rfl, rfl⟩

end

section
/-! The codes of a derived book: which of them is a prefix of which, and how long they are (41_codebook rules
R130, R132, R133). -/

namespace Sys2Proof.Machine

variable {P : Params}

/-- Of a single leaf DERIVE records the empty path (R132). -/
theorem read_derive_leaf (a b : Symbol P) (w : Nat) :
    Memory.read (derive (some (.leaf a w))) b = if a = b then some [] else none :=
  Memory.read_write [] a b []

/-- Below a leaf there is nothing: a path that goes through a leaf ends there (R24). -/
theorem leaf_of_prefix {t : Node P} {a b : Symbol P} {v w : Nat} {p q : Code}
    (hp : nodeAt t p = some (.leaf a v)) (hq : nodeAt t q = some (.leaf b w)) (hpq : p <+: q) : a = b := by
  obtain ⟨r, rfl⟩ := hpq
  rw [nodeAt_append r hp] at hq
  cases r with
  | nil =>
    rw [nodeAt_nil] at hq
    cases hq
    rfl
  | cons c r => cases hq

/-- The root of a tree with two leaves or more is no leaf. -/
theorem path_ne_nil_of_two_leaves {t : Node P} {a : Symbol P} {w : Nat} {p : Code}
    (hp : nodeAt t p = some (.leaf a w)) (h2 : 2 ≤ (leafSymbols t).length) : p ≠ [] := by
  rintro rfl
  rw [nodeAt_nil] at hp
  cases hp
  exact absurd h2 (by simp [leafSymbols])

/-- In a derived book the code of one symbol is a prefix of the code of that symbol only (R133). -/
theorem derived_symbol_of_prefix {t : Node P} (hn : (leafSymbols t).Nodup) {a b : Symbol P} {p q : Code}
    (ha : Memory.read (derive (some t)) a = some p) (hb : Memory.read (derive (some t)) b = some q)
    (hpq : p <+: q) : a = b := by
  obtain ⟨v, hp⟩ := (read_derive_iff hn a p).mp ha
  obtain ⟨w, hq⟩ := (read_derive_iff hn b q).mp hb
  exact leaf_of_prefix hp hq hpq

end Sys2Proof.Machine
end

section
/-! LOAD_CODES over acceptable records, and at the first record that fails a test (41_codebook rules R135,
R136). -/

namespace Sys2Proof.Machine

variable {P : Params}

theorem exec_loadCodes_of_ok {len : Nat} {s : Engine P} {b : Book P} (h : importBook (s.operand len) = .ok b) :
    exec (.loadCodes len) ⟨P, s⟩ =
      .next ⟨P, s.complete { mode := .imported, tree := none, book := b } (Report.success false) []⟩ := by
  rw [exec_eq, commandResult_loadCodes, Instr.len, loadCodesResult, h, finish_ok]

theorem exec_loadCodes_of_error {len : Nat} {s : Engine P} {e : Error P}
    (h : importBook (s.operand len) = .error e) :
    exec (.loadCodes len) ⟨P, s⟩ = .next ⟨P, s.raise e⟩ := by
  rw [exec_eq, commandResult_loadCodes, Instr.len, loadCodesResult, h, finish_error]

/-! ### The code a list of records gives a symbol -/

@[simp] theorem recordCode_nil (a : Symbol P) : recordCode [] a = none := rfl

theorem recordCode_cons (r : CodeRecord P) (rs : List (CodeRecord P)) (a : Symbol P) :
    recordCode (r :: rs) a = if itemSymbol r.1 = a then some (itemBits r.2) else recordCode rs a := by
  by_cases h : itemSymbol r.1 = a <;> simp [recordCode, h]

theorem recordCode_eq_none_iff (rs : List (CodeRecord P)) (a : Symbol P) :
    recordCode rs a = none ↔ a ∉ rs.map (fun r => itemSymbol r.1) := by
  simp [recordCode]

/-! ### The book of a list of records -/

/-- The book after LOAD_CODES has written the records' codes over `b`, in operand order (R135). -/
def recordsBook (rs : List (CodeRecord P)) (b : Book P) : Book P :=
  rs.foldl (fun b r => Memory.write b (itemSymbol r.1) (itemBits r.2)) b

@[simp] theorem recordsBook_nil (b : Book P) : recordsBook [] b = b := rfl

@[simp] theorem recordsBook_cons (r : CodeRecord P) (rs : List (CodeRecord P)) (b : Book P) :
    recordsBook (r :: rs) b = recordsBook rs (Memory.write b (itemSymbol r.1) (itemBits r.2)) := rfl

/-- Records with distinct symbols write each its own code, and leave the other entries (R135). -/
theorem read_recordsBook {rs : List (CodeRecord P)} (hn : (rs.map (fun r => itemSymbol r.1)).Nodup)
    (b : Book P) (a : Symbol P) :
    Memory.read (recordsBook rs b) a = (recordCode rs a).or (Memory.read b a) := by
  induction rs generalizing b with
  | nil => rfl
  | cons r rs ih =>
    obtain ⟨hr, hrs⟩ := List.nodup_cons.mp hn
    rw [recordsBook_cons, ih hrs, Memory.read_write, recordCode_cons]
    by_cases ha : itemSymbol r.1 = a
    · have hnone : recordCode rs a = none := (recordCode_eq_none_iff rs a).mpr (ha ▸ hr)
      simp [ha, hnone]
    · simp [ha]

/-! ### The loop of LOAD_CODES -/

@[simp] theorem importRecords_nil (fuel : Nat) (b : Book P) : importRecords fuel [] b = .ok b := by
  cases fuel <;> rfl

/-- A header with `n > CODE_MAX`, whatever else is wrong with its record (R136). -/
theorem importRecords_tooLong {h : InItem P} (hmax : P.codeMax < itemCount h) (fuel : Nat)
    (rest : List (InItem P)) (b : Book P) : importRecords (fuel + 1) (h :: rest) b = .error .capacity := by
  rw [importRecords, if_pos hmax]

/-- A record that the operand cuts short (R136). -/
theorem importRecords_cutShort {h : InItem P} {rest : List (InItem P)} (hmax : itemCount h ≤ P.codeMax)
    (hcut : rest.length < itemCount h) (fuel : Nat) (b : Book P) :
    importRecords (fuel + 1) (h :: rest) b = .error .invalidOperand := by
  rw [importRecords, if_neg hmax.not_gt, if_pos hcut]

/-- A record for a symbol that has its code already (R136). -/
theorem importRecords_repeated {h : InItem P} {rest : List (InItem P)} {b : Book P}
    (hmax : itemCount h ≤ P.codeMax) (hfits : itemCount h ≤ rest.length)
    (hb : Memory.read b (itemSymbol h) ≠ none) (fuel : Nat) :
    importRecords (fuel + 1) (h :: rest) b = .error .invalidOperand := by
  rw [importRecords, if_neg hmax.not_gt, if_neg hfits.not_gt, if_pos (Option.isSome_iff_ne_none.mpr hb)]

/-- Acceptable records take one turn each, and what follows them finds the book with their codes (R135). -/
theorem importRecords_recordsOk {rs : List (CodeRecord P)} (hrs : recordsOk rs) (ts : List (CodeRecord P))
    (fuel : Nat) {b : Book P} (hb : ∀ r ∈ rs, Memory.read b (itemSymbol r.1) = none) :
    importRecords (fuel + rs.length) (recordItems (rs ++ ts)) b =
      importRecords fuel (recordItems ts) (recordsBook rs b) := by
  induction rs generalizing b with
  | nil => rfl
  | cons r rs ih =>
    obtain ⟨hframed, hdistinct⟩ := hrs
    obtain ⟨⟨hcount, hmax⟩, hframed⟩ := List.forall_mem_cons.mp hframed
    obtain ⟨hnew, hdistinct⟩ := List.nodup_cons.mp hdistinct
    obtain ⟨hread, hb⟩ := List.forall_mem_cons.mp hb
    have hwritten : ∀ r' ∈ rs,
        Memory.read (Memory.write b (itemSymbol r.1) (itemBits r.2)) (itemSymbol r'.1) = none := by
      intro r' hr'
      have hne : itemSymbol r.1 ≠ itemSymbol r'.1 := fun heq =>
        hnew (List.mem_map.mpr ⟨r', hr', heq.symm⟩)
      rw [Memory.read_write_other b _ hne, hb r' hr']
    rw [List.length_cons, ← Nat.add_assoc, List.cons_append, importRecords_record hcount,
      if_neg (by omega), hread, if_neg (by simp), ih ⟨hframed, hdistinct⟩ hwritten, recordsBook_cons]

/-- Every record has its header item. -/
theorem length_le_recordItems (rs : List (CodeRecord P)) : rs.length ≤ (recordItems rs).length := by
  induction rs with
  | nil => rfl
  | cons r rs ih =>
    rw [recordItems_cons]
    simp only [List.length_cons, List.length_append]
    omega

theorem recordItems_append (rs ts : List (CodeRecord P)) :
    recordItems (rs ++ ts) = recordItems rs ++ recordItems ts := List.flatMap_append

/-- Behind acceptable records LOAD_CODES goes on with their codes in the book, and with fuel for every item
that is left. -/
theorem importBook_recordsOk {rs : List (CodeRecord P)} (hrs : recordsOk rs) (ts : List (CodeRecord P)) :
    ∃ fuel, importBook (recordItems (rs ++ ts)) =
      importRecords (fuel + (recordItems ts).length) (recordItems ts) (recordsBook rs []) := by
  refine ⟨(recordItems rs).length - rs.length, ?_⟩
  have hle := length_le_recordItems rs
  have hfuel : (recordItems (rs ++ ts)).length =
      (recordItems rs).length - rs.length + (recordItems ts).length + rs.length := by
    rw [recordItems_append, List.length_append]
    omega
  rw [importBook, hfuel, importRecords_recordsOk hrs ts _ (fun r _ => rfl)]

/-- Acceptable records and nothing behind them (R135). -/
theorem importBook_recordItems {rs : List (CodeRecord P)} (hrs : recordsOk rs) :
    importBook (recordItems rs) = .ok (recordsBook rs []) := by
  obtain ⟨fuel, himport⟩ := importBook_recordsOk hrs []
  rw [List.append_nil] at himport
  exact himport.trans (importRecords_nil ..)

/-- Behind acceptable records the header `h` is judged with their codes in the book (R136). -/
theorem importBook_header {rs : List (CodeRecord P)} (hrs : recordsOk rs) (h : InItem P)
    (rest : List (InItem P)) :
    ∃ fuel, importBook (recordItems rs ++ h :: rest) =
      importRecords (fuel + 1) (h :: rest) (recordsBook rs []) := by
  have hlast : recordItems [(h, rest)] = h :: rest := by
    rw [recordItems_cons]
    exact congrArg _ (List.append_nil rest)
  obtain ⟨fuel, himport⟩ := importBook_recordsOk hrs [(h, rest)]
  rw [recordItems_append, hlast] at himport
  exact ⟨fuel + rest.length, himport⟩

end Sys2Proof.Machine
end

section
/-! The statements about the code book (41_codebook). -/

open Sys2Proof Sys2Proof.Machine

/-- Settles O43: WALK writes the path of each leaf, once each because the leaf symbols are distinct. -/
theorem deriveRecordsTheLeafPaths : Obligations.DeriveRecordsTheLeafPaths := by
  intro P
  exact ⟨fun t a p hn => read_derive_iff hn a p, derive_zeroWeights, Memory.read_nil, read_derive_leaf⟩

/-- Settles O44: the codes are the paths to the leaves, and no path goes on below a leaf. -/
theorem derivedBookIsPrefixFree : Obligations.DerivedBookIsPrefixFree := by
  intro P t hn
  refine ⟨fun a b p q ha hb => ⟨fun hne hpq => hne (derived_symbol_of_prefix hn ha hb hpq), ?_⟩,
    fun a p ha => ⟨fun h2 => ?_, fun h1 => ?_⟩⟩
  · rintro rfl
    exact derived_symbol_of_prefix hn ha hb (List.prefix_refl p)
  · obtain ⟨w, hp⟩ := (read_derive_iff hn a p).mp ha
    exact List.length_pos_of_ne_nil (path_ne_nil_of_two_leaves hp h2)
  · have hlen := derived_code_length_le_depth hn ha
    have hdepth := depth_lt_leaves t
    exact List.eq_nil_of_length_eq_zero (by omega)

/-- Settles O45: each acceptable record passes the three tests and writes its own code. -/
theorem loadCodesInstallsTheRecords : Obligations.LoadCodesInstallsTheRecords := by
  intro P len s rs hrs hop
  refine ⟨recordsBook rs [], ?_, fun a => ?_⟩
  · exact exec_loadCodes_of_ok (hop ▸ importBook_recordItems hrs)
  · obtain ⟨-, hdistinct⟩ := hrs
    rw [read_recordsBook hdistinct, Memory.read_nil, Option.or_none]

/-- Settles O46: the loop comes to the header with the earlier records' codes in the book, and its tests stand
in the order of R136. -/
theorem loadCodesErrorsInOrder : Obligations.LoadCodesErrorsInOrder := by
  intro P len s rs h rest hrs hop
  obtain ⟨fuel, himport⟩ := importBook_header hrs h rest
  rw [← hop] at himport
  refine ⟨fun hmax => ?_, fun hmax hcut => ?_, fun hmax hfits hmem => ?_⟩
  · exact exec_loadCodes_of_error (himport.trans (importRecords_tooLong hmax fuel rest _))
  · exact exec_loadCodes_of_error (himport.trans (importRecords_cutShort hmax hcut fuel _))
  · obtain ⟨-, hdistinct⟩ := hrs
    have hgiven : Memory.read (recordsBook rs []) (itemSymbol h) ≠ none := by
      rw [read_recordsBook hdistinct, Memory.read_nil, Option.or_none, Ne, recordCode_eq_none_iff]
      exact not_not_intro hmem
    exact exec_loadCodes_of_error (himport.trans (importRecords_repeated hmax hfits hgiven fuel))

end

section
/-! ENCODE over the symbols that are in the book, and at the first one that fails its test (42_codec rules R152,
R154). -/

namespace Sys2Proof.Machine

variable {P : Params}

theorem exec_encode_of_ok {len : Nat} {s : Engine P} {bits : Code}
    (h : encodeText s.coding.book (itemSymbols (s.operand len)) 0 = .ok bits) :
    exec (.encode len) ⟨P, s⟩ =
      .next ⟨P, s.complete s.coding (Report.success false) (bits.map bitItem)⟩ := by
  rw [exec_eq, commandResult_encode, Instr.len, encodeResult, h, finish_ok]

theorem exec_encode_of_error {len : Nat} {s : Engine P} {e : Error P}
    (h : encodeText s.coding.book (itemSymbols (s.operand len)) 0 = .error e) :
    exec (.encode len) ⟨P, s⟩ = .next ⟨P, s.raise e⟩ := by
  rw [exec_eq, commandResult_encode, Instr.len, encodeResult, h, finish_error]

/-! ### The code of a text -/

@[simp] theorem itemSymbols_cons (x : InItem P) (xs : List (InItem P)) :
    itemSymbols (x :: xs) = itemSymbol x :: itemSymbols xs := rfl

theorem itemSymbols_append (xs ys : List (InItem P)) :
    itemSymbols (xs ++ ys) = itemSymbols xs ++ itemSymbols ys := List.map_append

@[simp] theorem textCode_nil (b : Book P) : textCode b [] = [] := rfl

theorem textCode_cons {b : Book P} {x : InItem P} {c : Code} (xs : List (InItem P))
    (h : Memory.read b (itemSymbol x) = some c) : textCode b (x :: xs) = c ++ textCode b xs := by
  simp [textCode, h]

theorem textKnown_cons {b : Book P} {x : InItem P} {xs : List (InItem P)} :
    textKnown b (x :: xs) ↔ (∃ c, Memory.read b (itemSymbol x) = some c) ∧ textKnown b xs := by
  simp [textKnown, Option.isSome_iff_exists]

/-- Known symbols whose codes fit push these codes, and the loop goes on behind them (R152). -/
theorem encodeText_known_append {b : Book P} {xs : List (InItem P)} {n : Nat} (hknown : textKnown b xs)
    (hfits : n + (textCode b xs).length ≤ P.lenMax) (rest : List (Symbol P)) :
    encodeText b (itemSymbols xs ++ rest) n =
      (encodeText b rest (n + (textCode b xs).length)).map (fun bits => textCode b xs ++ bits) := by
  induction xs generalizing n with
  | nil => cases h : encodeText b rest n <;> simp [itemSymbols, h, Except.map]
  | cons x xs ih =>
    obtain ⟨⟨c, hc⟩, hknown⟩ := textKnown_cons.mp hknown
    rw [textCode_cons xs hc, List.length_append, ← Nat.add_assoc] at hfits ⊢
    have hfirst : n + c.length ≤ P.lenMax := by omega
    rw [itemSymbols_cons, List.cons_append, encodeText_cons _ hc hfirst, ih hknown hfits]
    cases encodeText b rest (n + c.length + (textCode b xs).length) <;> simp [Except.map]

/-- A text of known symbols whose codes fit (R152). -/
theorem encodeText_known {b : Book P} {xs : List (InItem P)} (hknown : textKnown b xs)
    (hfits : (textCode b xs).length ≤ P.lenMax) :
    encodeText b (itemSymbols xs) 0 = .ok (textCode b xs) := by
  have h := encodeText_known_append hknown (n := 0) (by omega) []
  rwa [List.append_nil, encodeText_nil, Except.map, List.append_nil] at h

/-- Behind a known part that fits, a symbol that fails its test decides the outcome (R152). -/
theorem encodeText_first_error {b : Book P} {before after : List (InItem P)} {x : InItem P} {e : Error P}
    (hknown : textKnown b before) (hfits : (textCode b before).length ≤ P.lenMax)
    (hx : encodeText b (itemSymbols (x :: after)) (textCode b before).length = .error e) :
    encodeText b (itemSymbols (before ++ x :: after)) 0 = .error e := by
  rw [itemSymbols_append, encodeText_known_append hknown (by omega), Nat.zero_add, hx, Except.map]

/-- What a successful ENCODE says: every symbol is in the book, and the code of the text is staged (R152). -/
theorem exec_encode_success {len : Nat} {s t : Engine P} (h : exec (.encode len) ⟨P, s⟩ = .next ⟨P, t⟩)
    (herr : t.report.err = none) :
    textKnown s.coding.book (s.operand len) ∧
      t.staged = (textCode s.coding.book (s.operand len)).map bitItem := by
  obtain ⟨d, hd, rfl⟩ | ⟨e, -, rfl⟩ := exec_cases h
  · obtain ⟨bits, hbits, rfl⟩ := encodeResult_ok hd
    obtain ⟨hknown, rfl, -⟩ := encodeText_ok (Nat.zero_le _) hbits
    exact ⟨hknown, rfl⟩
  · cases herr

/-! ### What MODE says of TREE and BOOK -/

/-- In MODE TREE the book is the one derived from the tree (R23). -/
theorem Coding.Inv.derived {c : Coding P} {t : Node P} (h : c.Inv) (hm : c.mode = .tree)
    (ht : c.tree = some t) : treeOk t ∧ c.book = derive (some t) := by
  unfold Coding.Inv at h
  rw [hm, ht] at h
  obtain ⟨t', heq, hok, hbook⟩ := h
  cases heq
  exact ⟨hok, hbook⟩

/-- In MODE EMPTY no entry of the book is valid (R23). -/
theorem Coding.Inv.book_of_empty {c : Coding P} (h : c.Inv) (hm : c.mode = .empty) : c.book = [] := by
  unfold Coding.Inv at h
  rw [hm] at h
  exact h.2

end Sys2Proof.Machine
end

section
/-! The walk of DECODE, and the split of its bits into root-to-leaf paths and a rest (42_codec rules R155 to
R161). -/

namespace Sys2Proof.Machine

variable {P : Params}

/-- DECODE whose walk comes to the end of its bits (R155, R160). -/
theorem exec_decode_of_ok {len : Nat} {s : Engine P} {t : Node P} {text : List (Symbol P)} {mid : Bool}
    (hm : s.coding.mode = .tree) (ht : s.coding.tree = some t)
    (h : walkBits t t false (itemBits (s.operand len)) = .ok (text, mid)) :
    exec (.decode len) ⟨P, s⟩ = .next ⟨P, s.complete s.coding (Report.success mid) text⟩ := by
  rw [exec_eq, commandResult_decode, Instr.len, decodeResult_tree _ hm ht, h, finish_ok]

theorem exec_decode_of_error {len : Nat} {s : Engine P} {t : Node P} {e : Error P}
    (hm : s.coding.mode = .tree) (ht : s.coding.tree = some t)
    (h : walkBits t t false (itemBits (s.operand len)) = .error e) :
    exec (.decode len) ⟨P, s⟩ = .next ⟨P, s.raise e⟩ := by
  rw [exec_eq, commandResult_decode, Instr.len, decodeResult_tree _ hm ht, h, finish_error]

/-- The rest alone: a path that stops above a leaf. -/
theorem DecodesTo.of_rest {t : Node P} {left : Code} {w : Nat} {l r : Node P}
    (h : nodeAt t left = some (.internal w l r)) : DecodesTo t left [] left :=
  ⟨[], rfl, .nil, w, l, r, h⟩

/-- One more root-to-leaf path in front. -/
theorem DecodesTo.path_append {t : Node P} {p bits left : Code} {a : Symbol P} {w : Nat}
    {text : List (Symbol P)} (hp : p ≠ []) (ha : nodeAt t p = some (.leaf a w))
    (h : DecodesTo t bits text left) : DecodesTo t (p ++ bits) (a :: text) left := by
  obtain ⟨paths, rfl, hpaths, hleft⟩ := h
  exact ⟨p :: paths, by simp, .cons ⟨hp, w, ha⟩ hpaths, hleft⟩

/-- The walk emits the symbols of the paths and drops the rest (R157, R160). -/
theorem DecodesTo.walkBits_eq {t : Node P} {bits left : Code} {text : List (Symbol P)}
    (h : DecodesTo t bits text left) : walkBits t t false bits = .ok (text, decide (left ≠ [])) := by
  obtain ⟨paths, rfl, hpaths, w, l, r, hleft⟩ := h
  induction hpaths with
  | nil => simpa using walkBits_left t false hleft
  | cons hfirst _ ih =>
    obtain ⟨hp, v, ha⟩ := hfirst
    rw [List.flatten_cons, List.append_assoc, walkBits_path t false _ hp ha, ih, Except.map]

/-- With `walked` the path from the root to the inner node the walk stands at, the bits split whatever they
are: each bit leads to an inner node, or to a leaf, where the next path starts at the root (R158). -/
theorem exists_decodesTo_of_walked {w : Nat} {l r : Node P} (bits : Code) {walked : Code} {v : Nat}
    {x y : Node P} (h : nodeAt (.internal w l r) walked = some (.internal v x y)) :
    ∃ text left, DecodesTo (.internal w l r) (walked ++ bits) text left := by
  induction bits generalizing walked v x y with
  | nil =>
    rw [List.append_nil]
    exact ⟨[], walked, .of_rest h⟩
  | cons b bits ih =>
    have hnext : nodeAt (.internal w l r) (walked ++ [b]) = some (if b then y else x) := by
      rw [nodeAt_append [b] h, nodeAt, nodeAt_nil]
    rw [List.append_cons]
    cases hchild : (if b then y else x) with
    | internal v' x' y' => exact ih (hchild ▸ hnext)
    | leaf a v' =>
      obtain ⟨text, left, hrest⟩ := ih (walked := []) (nodeAt_nil _)
      exact ⟨a :: text, left, hrest.path_append (by simp) (hchild ▸ hnext)⟩

/-- Every bit string splits into paths of a tree with two leaves or more, and a rest (R160). -/
theorem exists_decodesTo (w : Nat) (l r : Node P) (bits : Code) :
    ∃ text left, DecodesTo (.internal w l r) bits text left :=
  exists_decodesTo_of_walked bits (walked := []) (nodeAt_nil _)

/-! ### The code of a text in a derived book -/

theorem two_le_leafSymbols_internal (w : Nat) (l r : Node P) :
    2 ≤ (leafSymbols (.internal w l r)).length := by
  have hl := List.length_pos_of_ne_nil (leafSymbols_ne_nil l)
  have hr := List.length_pos_of_ne_nil (leafSymbols_ne_nil r)
  rw [leafSymbols, List.length_append]
  omega

/-- The codes of a derived book are the paths of its tree, so the code of a text splits into the paths of its
symbols, and no rest (R130, R161). -/
theorem decodesTo_textCode {w : Nat} {l r : Node P} (hn : (leafSymbols (.internal w l r)).Nodup)
    {xs : List (InItem P)} (hknown : textKnown (derive (some (.internal w l r))) xs) :
    DecodesTo (.internal w l r) (textCode (derive (some (.internal w l r))) xs) (itemSymbols xs) [] := by
  induction xs with
  | nil => exact .of_rest (nodeAt_nil _)
  | cons x xs ih =>
    obtain ⟨⟨c, hc⟩, hknown⟩ := textKnown_cons.mp hknown
    obtain ⟨v, hleaf⟩ := (read_derive_iff hn (itemSymbol x) c).mp hc
    rw [textCode_cons xs hc]
    exact (ih hknown).path_append
      (path_ne_nil_of_two_leaves hleaf (two_le_leafSymbols_internal w l r)) hleaf

/-- The only code of a one-leaf tree is empty, so every text it encodes gives no bit (R159). -/
theorem textCode_of_one_leaf (a : Symbol P) (w : Nat) (xs : List (InItem P)) :
    textCode (derive (some (.leaf a w))) xs = [] := by
  rw [textCode, List.flatMap_eq_nil_iff]
  intro b _
  rw [read_derive_leaf]
  split <;> rfl

/-- The tree's walk over the code of a text: the text of a tree with two leaves or more, nothing of a one-leaf
tree, and no rest either way (R161). -/
theorem walkBits_textCode {t : Node P} (hn : (leafSymbols t).Nodup) {xs : List (InItem P)}
    (hknown : textKnown (derive (some t)) xs) :
    walkBits t t false (textCode (derive (some t)) xs) =
      .ok (if 2 ≤ (leafSymbols t).length then itemSymbols xs else [], false) := by
  cases t with
  | leaf a w =>
    rw [textCode_of_one_leaf, walkBits_nil]
    rfl
  | internal w l r =>
    rw [(decodesTo_textCode hn hknown).walkBits_eq, if_pos (two_le_leafSymbols_internal w l r)]
    rfl

end Sys2Proof.Machine
end

section
/-! The statements about the codec (42_codec). -/

open Sys2Proof Sys2Proof.Machine

/-- Settles O48: the loop pushes the codes of the known part in front, and the next symbol stands its tests
behind them. -/
theorem encodeConcatenatesTheCodes : Obligations.EncodeConcatenatesTheCodes := by
  intro P len s
  refine ⟨fun hknown hfits => exec_encode_of_ok (encodeText_known hknown hfits), ?_⟩
  intro before x after hop hknown hfits
  have hraise : ∀ e, encodeText s.coding.book (itemSymbols (x :: after))
      (textCode s.coding.book before).length = .error e →
      exec (.encode len) ⟨P, s⟩ = .next ⟨P, s.raise e⟩ := fun e he =>
    exec_encode_of_error (hop ▸ encodeText_first_error hknown hfits he)
  exact ⟨fun habsent => hraise _ (encodeText_unknown _ _ habsent),
    fun c hc hover => hraise _ (encodeText_capacity _ hc hover)⟩

/-- Settles O49: the loop runs zero times over no symbol, and an empty book has no code for the first one. -/
theorem encodeOfEmptyTextAndEmptyBook : Obligations.EncodeOfEmptyTextAndEmptyBook := by
  intro P
  refine ⟨fun s => ?_, fun len s x rest hempty hop => ?_⟩
  · have hop : s.operand 0 = [] := List.take_zero
    exact exec_encode_of_ok (bits := []) (hop ▸ encodeText_nil _ 0)
  · have hbook : s.coding.book = [] := by
      obtain hbook | ⟨⟨hcoding, -, -⟩, hm⟩ := hempty
      · exact hbook
      · exact hcoding.book_of_empty hm
    apply exec_encode_of_error
    rw [hop, hbook]
    exact encodeText_unknown _ 0 (Memory.read_nil _)

/-- Settles O50: the precondition is tested before the operand is looked at. -/
theorem decodeNeedsATree : Obligations.DecodeNeedsATree := by
  intro P len s hm
  exact exec_of_error (decodeResult_no_tree _ hm)

/-- Settles O51: the walk stands at a leaf from the start, and no bit leads on from there. -/
theorem decodeWithOneLeaf : Obligations.DecodeWithOneLeaf := by
  intro P len s a w hm ht
  refine ⟨fun hop => exec_decode_of_ok hm ht ?_, fun hop => exec_decode_of_error hm ht ?_⟩
  · rw [hop]
    exact walkBits_nil _ _ _
  · obtain ⟨x, xs, hop⟩ := List.exists_cons_of_ne_nil hop
    rw [hop]
    exact walkBits_leaf _ a w _ _ _

/-- Settles O52: from an inner node every bit leads to a node, and the walk follows the split. -/
theorem decodeSplitsTheBitsIntoPaths : Obligations.DecodeSplitsTheBitsIntoPaths := by
  intro P len s w l r hm ht
  exact ⟨exists_decodesTo w l r _, fun text left h => exec_decode_of_ok hm ht h.walkBits_eq⟩

/-- Settles O53: the invariant ties the book to the tree, so the staged bits are the paths of the text. -/
theorem decodeOfEncodeIsTheText : Obligations.DecodeOfEncodeIsTheText := by
  intro P len s t w tree hP hs hm ht hexec herr
  obtain ⟨hcoding, -, -⟩ := hs
  obtain ⟨⟨hn, -, -⟩, hbook⟩ := hcoding.derived hm ht
  obtain ⟨hknown, hstaged⟩ := exec_encode_success hexec herr
  refine exec_decode_of_ok (s := s.withOperand w (t.staged.map carryItem)) hm ht ?_
  rw [Engine.withOperand_operand, List.take_of_length_le (by simp), hstaged, itemBits_carry hP, hbook]
  exact walkBits_textCode hn (hbook ▸ hknown)

end

section
/-! SER and PARSE as inverses of each other, and the length of SER (43_serializer rules R180, R184, R187). -/

namespace Sys2Proof.Machine

variable {P : Params}

/-- An inner node writes one character and a leaf two (R184). -/
theorem serNode_length_succ (t : Node P) : (serNode t).length + 1 = 3 * (leafSymbols t).length := by
  induction t with
  | leaf s w => rfl
  | internal w l r ihl ihr =>
    simp only [serNode, leafSymbols, List.length_cons, List.length_append]
    omega

/-- There are not more distinct leaves than symbols (R184). -/
theorem serNode_length_le {t : Node P} (hn : (leafSymbols t).Nodup) : (serNode t).length ≤ 3 * P.nsym - 1 := by
  have hlen := serNode_length_succ t
  have hleaves := length_le_nsym_of_nodup hn
  omega

/-- With fuel for its characters PARSE reads back a serialized node and stops behind it (R187). -/
theorem parseNode_serNode (hP : P.Valid) {t : Node P} {fuel : Nat} (hf : (serNode t).length ≤ fuel)
    (rest : List (Symbol P)) : parseNode fuel (serNode t ++ rest) = .ok (zeroWeights t, rest) := by
  induction t generalizing fuel rest with
  | leaf s w =>
    obtain ⟨fuel, rfl⟩ := Nat.exists_eq_add_one_of_ne_zero (Nat.ne_zero_of_lt hf)
    exact parseNode_leaf fuel s rest
  | internal w l r ihl ihr =>
    obtain ⟨fuel, rfl⟩ := Nat.exists_eq_add_one_of_ne_zero (Nat.ne_zero_of_lt hf)
    simp only [serNode, List.length_cons, List.length_append] at hf
    rw [serNode, List.cons_append, List.append_assoc, parseNode_internal hP, ihl (by omega), Except.bind,
      ihr (by omega)]
    rfl

theorem parse_serNode (hP : P.Valid) (t : Node P) (rest : List (Symbol P)) :
    parse (serNode t ++ rest) = .ok (zeroWeights t, rest) :=
  parseNode_serNode hP (by simp) rest

/-- Data that PARSE reads to the end is the serialization of what it gives (R187, R194). -/
theorem eq_serNode_of_parse {data : List (Symbol P)} {t : Node P} (h : parse data = .ok (t, [])) :
    data = serNode t := by
  obtain ⟨hdata, -⟩ := parseNode_ok h
  rwa [List.append_nil] at hdata

end Sys2Proof.Machine
end

section
/-! SAVE and LOAD, from the coding state or the operand to the outcome (43_serializer rules R181, R182, R185,
R191). -/

namespace Sys2Proof.Machine

variable {P : Params}

/-! ### SAVE -/

@[simp] theorem savedString_installTree (t : Node P) : savedString (installTree t) = serNode t := rfl

theorem saveResult_of_lt {c : Coding P} (h : P.lenMax < (savedString c).length) :
    saveResult c = .error .capacity := if_pos h

theorem exec_save_of_le {len : Nat} {s : Engine P} (h : (savedString s.coding).length ≤ P.lenMax) :
    exec (.save len) ⟨P, s⟩ =
      .next ⟨P, s.complete s.coding (Report.success false) (savedString s.coding)⟩ :=
  exec_of_ok (i := .save len) (saveResult_of_le h)

theorem exec_save_of_lt {len : Nat} {s : Engine P} (h : P.lenMax < (savedString s.coding).length) :
    exec (.save len) ⟨P, s⟩ = .next ⟨P, s.raise .capacity⟩ :=
  exec_of_error (i := .save len) (saveResult_of_lt h)

/-- Without a tree SAVE gives the empty string, with success (R181, R182). -/
theorem exec_save_of_no_tree {len : Nat} {s : Engine P} (h : s.coding.mode ≠ .tree) :
    exec (.save len) ⟨P, s⟩ = .next ⟨P, s.complete s.coding (Report.success false) []⟩ := by
  have hsaved := savedString_of_no_tree h
  rw [exec_save_of_le (by simp [hsaved]), hsaved]

/-- What a successful SAVE says: the string fits, and it is staged (R181). -/
theorem exec_save_success {len : Nat} {s u : Engine P} (h : exec (.save len) ⟨P, s⟩ = .next ⟨P, u⟩)
    (herr : u.report.err = none) :
    (savedString s.coding).length ≤ P.lenMax ∧ u.staged = savedString s.coding := by
  obtain ⟨d, hd, rfl⟩ | ⟨e, -, rfl⟩ := exec_cases h
  · obtain ⟨hlen, rfl⟩ := saveResult_ok hd
    exact ⟨hlen, rfl⟩
  · cases herr

/-- There is a tree, which is installable, in MODE TREE only (R23, R25). -/
theorem Coding.Inv.tree_cases {c : Coding P} (h : c.Inv) :
    (c.mode = .tree ∧ ∃ t, c.tree = some t ∧ treeOk t) ∨ (c.mode ≠ .tree ∧ c.tree = none) := by
  unfold Coding.Inv at h
  cases hm : c.mode with
  | empty =>
    rw [hm] at h
    exact .inr ⟨by simp, h.left⟩
  | imported =>
    rw [hm] at h
    exact .inr ⟨by simp, h.left⟩
  | tree =>
    rw [hm] at h
    obtain ⟨t, ht, hok, -⟩ := h
    exact .inl ⟨rfl, t, ht, hok⟩

/-- SAVE writes the tree there is (R181, R182). -/
theorem Coding.Inv.savedString_eq {c : Coding P} (h : c.Inv) : savedString c = ser c.tree := by
  obtain ⟨hm, -⟩ | ⟨hm, hnone⟩ := h.tree_cases
  · exact savedString_of_tree hm
  · rw [savedString_of_no_tree hm, hnone, ser]

/-- The leaves of an installed tree are distinct, so its string is bounded (R25, R184). -/
theorem Coding.Inv.ser_length_le {c : Coding P} (h : c.Inv) : (ser c.tree).length ≤ 3 * P.nsym - 1 := by
  obtain ⟨-, t, ht, hn, -, -⟩ | ⟨-, hnone⟩ := h.tree_cases
  · rw [ht]
    exact serNode_length_le hn
  · rw [hnone]
    exact Nat.zero_le _

/-! ### LOAD -/

/-- Empty data installs the null tree (R191). -/
theorem exec_load_of_nil {len : Nat} {s : Engine P} (h : s.operand len = []) :
    exec (.load len) ⟨P, s⟩ = .next
      ⟨P, s.complete { mode := .empty, tree := none, book := [] } (Report.success false) []⟩ := by
  rw [exec_eq, Instr.len, h]
  rfl

/-- The parse leaves nothing behind, and weights play no part in the test for repeated symbols (R185, R188). -/
theorem loadResult_of_serNode (hP : P.Valid) {xs : List (InItem P)} {t : Node P}
    (hn : (leafSymbols t).Nodup) (h : itemSymbols xs = serNode t) :
    loadResult xs = .ok { coding := installTree (zeroWeights t), out := [], part := false } := by
  have hx : xs ≠ [] := fun hx => serNode_ne_nil t (h ▸ itemSymbols_eq_nil_iff.mpr hx)
  have hparse : parse (itemSymbols xs) = .ok (zeroWeights t, []) := by
    rw [h, ← parse_serNode hP t [], List.append_nil]
  simp [loadResult, hx, hparse, hn]

theorem exec_load_of_serNode (hP : P.Valid) {len : Nat} {s : Engine P} {t : Node P}
    (hn : (leafSymbols t).Nodup) (h : itemSymbols (s.operand len) = serNode t) :
    exec (.load len) ⟨P, s⟩ = .next
      ⟨P, s.complete (installTree (zeroWeights t)) (Report.success false) []⟩ :=
  exec_of_ok (i := .load len) (loadResult_of_serNode hP hn h)

/-- LOAD accepts no other data (R185, R194). -/
theorem loadResult_ok_data {xs : List (InItem P)} {d : Done P} (h : loadResult xs = .ok d) :
    (xs = [] ∧ d = { coding := { mode := .empty, tree := none, book := [] }, out := [], part := false }) ∨
    (∃ t, itemSymbols xs = serNode t ∧ (leafSymbols t).Nodup ∧
      d = { coding := installTree t, out := [], part := false }) := by
  obtain hempty | ⟨-, t, hparse, hn, hd⟩ := loadResult_ok h
  · exact .inl hempty
  · exact .inr ⟨t, eq_serNode_of_parse hparse, hn, hd⟩

theorem loadResult_of_ne_serNode {xs : List (InItem P)} (hx : xs ≠ [])
    (h : ∀ t, (leafSymbols t).Nodup → itemSymbols xs ≠ serNode t) :
    loadResult xs = .error .malformedTreeData := by
  cases hr : loadResult xs with
  | error e => rw [loadResult_error hr]
  | ok d =>
    obtain ⟨hnil, -⟩ | ⟨t, hdata, hn, -⟩ := loadResult_ok_data hr
    · exact absurd hnil hx
    · exact absurd hdata (h t hn)

/-- What a successful LOAD leaves SAVE gives back (R193). -/
theorem savedString_of_load {xs : List (InItem P)} {d : Done P} (h : loadResult xs = .ok d) :
    savedString d.coding = itemSymbols xs := by
  obtain ⟨rfl, rfl⟩ | ⟨t, hdata, -, rfl⟩ := loadResult_ok_data h
  · rfl
  · rw [savedString_installTree, hdata]

/-- SAVE of a tree, carried to LOAD (R89, R193). -/
theorem exec_load_of_saved (hP : P.Valid) {s : Engine P} (w : CmdWord P) {t : Node P} {out : List (OutItem P)}
    (hn : (leafSymbols t).Nodup) (hout : out = serNode t) :
    exec (.load out.length) ⟨P, s.withOperand w (out.map carryItem)⟩ = .next
      ⟨P, (s.withOperand w (out.map carryItem)).complete (installTree (zeroWeights t))
        (Report.success false) []⟩ := by
  refine exec_load_of_serNode hP hn ?_
  rw [Engine.withOperand_operand, List.take_of_length_le (by simp), itemSymbols_carry, hout]

end Sys2Proof.Machine
end

section
/-! The statements about the serializer (43_serializer). -/

open Sys2Proof Sys2Proof.Machine

/-- Settles O47: LOAD_CODES leaves MODE IMPORT, and neither SAVE nor DECODE finds a tree in that mode. -/
theorem importLosesTheTree : Obligations.ImportLosesTheTree := by
  intro P
  refine ⟨fun len s hm => exec_save_of_no_tree (by simp [hm]), fun len n s t h herr => ?_⟩
  obtain ⟨d, hd, rfl⟩ | ⟨e, -, rfl⟩ := exec_cases h
  · obtain ⟨b, -, rfl⟩ := loadCodesResult_ok hd
    exact ⟨rfl, rfl, exec_save_of_no_tree (by simp), decodeNeedsATree P n _ (by simp)⟩
  · cases herr

/-- Settles O54, by induction on the tree. -/
theorem serializedLength : Obligations.SerializedLength := by
  intro P t
  have hcount := nodeCount_succ t
  exact ⟨by omega, serNode_length_succ t, serNode_length_le⟩

/-- Settles O55: under the invariant SAVE's string is SER of the tree in every mode. -/
theorem saveDeliversTheTree : Obligations.SaveDeliversTheTree := by
  intro P len s hs
  obtain ⟨hcoding, -, -⟩ := hs
  have hbound := hcoding.ser_length_le
  rw [← hcoding.savedString_eq] at hbound ⊢
  exact ⟨exec_save_of_le, exec_save_of_lt, hbound.trans⟩

/-- Settles O56, by induction on the tree with the fuel left over. -/
theorem parseInvertsSer : Obligations.ParseInvertsSer := by
  intro P t rest hP
  exact parse_serNode hP t rest

/-- Settles O57: PARSE reads every serialization, and a success of PARSE says that the data was one. -/
theorem loadAcceptsExactlyTheGrammar : Obligations.LoadAcceptsExactlyTheGrammar := by
  intro P len s hP
  exact ⟨exec_load_of_nil, fun t hn h => exec_load_of_serNode hP hn h,
    fun hne h => exec_of_error (i := .load len) (loadResult_of_ne_serNode hne h)⟩

/-- Settles O58: PARSE inverts SER on what SAVE gave, SER inverts PARSE on what LOAD took, and neither the book
nor the string depends on the weights LOAD forgets. -/
theorem saveAndLoadRoundTrip : Obligations.SaveAndLoadRoundTrip := by
  intro P hP
  refine ⟨fun n m s u w t hs hm ht hsave herr => ?_, fun len n s v hlen hload herr => ?_, fun n s w hm => ?_⟩
  · obtain ⟨hcoding, -, -⟩ := hs
    obtain ⟨⟨hn, -, -⟩, hbook⟩ := hcoding.derived hm ht
    obtain ⟨hfits, hstaged⟩ := exec_save_success hsave herr
    rw [savedString_of_tree hm, ht, ser] at hfits hstaged
    have hagain : savedString (installTree (zeroWeights t)) = serNode t := by simp
    refine ⟨_, _, exec_load_of_saved hP w hn hstaged, rfl, rfl, rfl, ?_, exec_save_of_le ?_, rfl, ?_⟩
    · rw [Engine.complete_coding, installTree_book, derive_zeroWeights, hbook]
    · rwa [Engine.complete_coding, hagain]
    · rw [Engine.complete_staged, Engine.complete_coding, hagain, hstaged]
  · obtain ⟨d, hd, rfl⟩ | ⟨e, -, rfl⟩ := exec_cases hload
    · have hsaved : savedString d.coding = itemSymbols (s.operand len) := savedString_of_load hd
      refine ⟨_, exec_save_of_le ?_, rfl, hsaved⟩
      rw [Engine.complete_coding, hsaved]
      exact (List.length_map _).trans_le hlen
    · cases herr
  · exact ⟨exec_save_of_no_tree hm, _, exec_load_of_nil List.take_nil, rfl, rfl⟩

end

section
/-! The errors by number and by command (60_exceptions rules R211, R213). -/

namespace Sys2Proof.Machine

variable {P : Params}

/-! ### The code numbers -/

/-- The error kind of a code number, where there is one (R211). -/
def ErrorKind.ofCode (n : BitVec 4) : Option ErrorKind :=
  match n.toNat with
  | 1 => some .emptyInput
  | 2 => some .unknownSymbol
  | 3 => some .decodePrecondition
  | 4 => some .malformedBitstream
  | 5 => some .malformedTreeData
  | 8 => some .invalidOperand
  | 9 => some .capacity
  | 10 => some .illegalCommand
  | _ => none

@[simp] theorem ErrorKind.ofCode_code (k : ErrorKind) : ErrorKind.ofCode k.code = some k := by
  cases k <;> rfl

theorem ErrorKind.code_injective : Function.Injective ErrorKind.code := by
  intro k k' h
  have hsome := congrArg ErrorKind.ofCode h
  rwa [ErrorKind.ofCode_code, ErrorKind.ofCode_code, Option.some_inj] at hsome

/-! ### What the invariant excludes -/

/-- Under the invariant every operand fits `LEN_MAX`, also one a command reads out of its turn (R52, R70). -/
theorem Engine.Inv.operand_length_le {s : Engine P} (hs : s.Inv) (len : Nat) :
    (s.operand len).length ≤ P.lenMax := by
  obtain ⟨-, -, hseq⟩ := hs
  have htaken : s.taken.length ≤ P.lenMax := by
    unfold Engine.taken
    split
    next g w xs hrun => exact ((Engine.seqInv_operands hrun).mp hseq).trans (cmdLen_le w)
    all_goals exact Nat.zero_le _
  exact (List.length_take_le' len s.taken).trans htaken

/-- The counts of a text that fits `LEN_MAX` fit `WEIGHT_W` bits, so its merge cannot overflow (R110). -/
theorem buildTextTree_error_of_fits (hP : P.Valid) {xs : List (InItem P)} {e : Error P}
    (hlen : xs.length ≤ P.lenMax) (h : buildTextTree xs = .error e) : e = .emptyInput := by
  by_cases hx : xs = []
  · rw [hx, buildTextTree_nil] at h
    exact (Except.error.inj h).symm
  · have hsum := (sum_countText (itemSymbols xs)).trans (List.length_map itemSymbol)
    obtain ⟨t, ht⟩ := build_of_fits (countText_itemSymbols_ne_nil hx)
      (hsum.trans_le (hlen.trans hP.lenMax_le))
    rw [buildTextTree_of_ne_nil hx, ht] at h
    cases h

/-- SAVE fails only where the longest string of a tree, `3·NSYM − 1` characters, is over `LEN_MAX` (R181). -/
theorem Coding.Inv.lenMax_lt_of_save_error {c : Coding P} (hc : c.Inv) {e : Error P}
    (h : saveResult c = .error e) : P.lenMax < 3 * P.nsym - 1 := by
  by_contra hmax
  have hfits : (savedString c).length ≤ P.lenMax := by
    rw [hc.savedString_eq]
    exact hc.ser_length_le.trans (not_lt.mp hmax)
  rw [saveResult_of_le hfits] at h
  cases h

end Sys2Proof.Machine
end

section
/-! The statements about the errors (60_exceptions). -/

open Sys2Proof Sys2Proof.Machine

/-- Settles O24: a command and a reserved word alike end a failure in `raise`, which writes the status fields
only. -/
theorem failedCommandKeepsTheCodingState : Obligations.FailedCommandKeepsTheCodingState := by
  intro P w s t h herr
  obtain ⟨i, -, hexec⟩ | ⟨e, -, rfl⟩ := runCommand_cases h
  · obtain ⟨d, -, rfl⟩ | ⟨e, -, rfl⟩ := exec_cases hexec
    · exact absurd rfl herr
    · exact Engine.raise_coding e s
  · exact Engine.raise_coding .illegalCommand s

/-- Settles O30: each command's function has the errors of its row, of which the invariant takes CapacityError
from BUILD_TEXT, whose text fits a weight, and from SAVE wherever every tree's string fits. -/
theorem errorsOfEachCommand : Obligations.ErrorsOfEachCommand := by
  intro P i s t k hP hs h hk
  obtain ⟨d, -, rfl⟩ | ⟨e, he, rfl⟩ := exec_cases h
  · cases hk
  obtain rfl : e.kind = k := Option.some.inj hk
  have hkind {e' : Error P} : e = e' → e.kind = e'.kind := congrArg Error.kind
  cases i with
  | buildText n =>
    exact hkind (buildTextTree_error_of_fits hP (hs.operand_length_le n) (installResult_error he))
  | buildFreq n => exact (buildFreqTree_error (installResult_error he)).imp hkind (Or.imp hkind hkind)
  | loadCodes n => exact (loadCodesResult_error he).imp hkind hkind
  | encode n => exact (encodeText_error (encodeResult_error he)).imp (fun ⟨_, _, ha⟩ => hkind ha) hkind
  | decode n => exact (decodeResult_error he).imp hkind hkind
  | save n =>
    obtain ⟨hcoding, -, -⟩ := hs
    exact ⟨hkind (saveResult_error he), hcoding.lenMax_lt_of_save_error he⟩
  | load n => exact hkind (loadResult_error he)

/-- Settles O7: the numbers are read off the definition, and `ErrorKind.ofCode` reads every kind back from its
own. -/
theorem errorCodeNumbers : Obligations.ErrorCodeNumbers := by
  refine ⟨rfl, rfl, rfl, rfl, rfl, rfl, rfl, rfl, fun _ _ h => ErrorKind.code_injective h, fun k hk => ?_⟩
  cases (errField_eq_zero_iff (some k)).mp hk

end

section
/-! The reset edge and the waits (70_reset_and_hazards R240, R241, R251). -/

namespace Sys2Proof.Machine

variable {P : Params} {s : Engine P}

/-! ### The reset edge -/

theorem step_of_rst (hr : s.rst = true) : step ⟨P, s⟩ = .next ⟨P, s.resetEngine⟩ :=
  if_pos hr

theorem Engine.resetEngine_sameHostSide (s : Engine P) : sameHostSide s s.resetEngine :=
  ⟨rfl, rfl, rfl, rfl, rfl, rfl, rfl⟩

/-! ### The waits: steps that change nothing -/

theorem eq_nil_of_eq_tail {α : Type} {l : List α} (h : l = l.tail) : l = [] := by
  cases l with
  | nil => rfl
  | cons x xs => exact absurd h (List.cons_ne_self x xs)

/-- Where no word moves, every open port lacks the host's half of its handshake (R57). -/
theorem Engine.host_withholds_of_movesTo_self (h : s.MovesTo s) :
    (s.cmdReady = true → s.cmdIn = []) ∧ (s.inReady = true → s.itemIn = []) ∧
      (s.rspValid = true → s.rspReady = false) ∧ (s.outValid = true → s.outReady = false) := by
  obtain ⟨hcmd, hin, hrsp, hout, -, -, -⟩ := h
  refine ⟨fun hready => ?_, fun hready => ?_, fun hvalid => ?_, fun hvalid => ?_⟩
  · rw [if_pos hready] at hcmd
    exact eq_nil_of_eq_tail hcmd
  · rw [if_pos hready] at hin
    exact eq_nil_of_eq_tail hin
  · obtain ⟨rsp, hdata⟩ := Option.isSome_iff_exists.mp hvalid
    by_contra hready
    simp [hdata, hready] at hrsp
  · obtain ⟨x, hdata⟩ := Option.isSome_iff_exists.mp hvalid
    by_contra hready
    simp [hdata, hready] at hout

/-- A wait under reset is a wait of the idle engine (R240). -/
theorem Engine.idle_of_wait_in_reset (h : step ⟨P, s⟩ = .next ⟨P, s⟩) (hr : s.rst = true) : s.seq = .idle := by
  rw [step_of_rst hr] at h
  exact (congrArg Engine.seq (next_inj.mp h)).symm

/-- A wait out of reset leaves a port open: a complete operand is run at once, and a delivery with nothing
left ends at once (R55, R251). -/
theorem Engine.port_open_of_wait (h : step ⟨P, s⟩ = .next ⟨P, s⟩) (hr : s.rst = false) :
    s.cmdReady = true ∨ s.inReady = true ∨ s.rspValid = true ∨ s.outValid = true := by
  obtain ⟨hrst, -⟩ | ⟨-, ⟨hs, -⟩ | ⟨g, w, xs, hs, hlt, -⟩ | ⟨g, w, xs, hs, -, hrun⟩ |
    ⟨g, rsp, out, hs, -⟩ | ⟨g, out, hs, heq⟩⟩ := step_cases h
  · simp [hr] at hrst
  · exact .inl (s.cmdReady_iff.mpr ⟨hs, hr⟩)
  · obtain ⟨-, hin, -, -⟩ := Engine.ports_of_operands hr hs
    exact .inr (.inl (hin.trans (decide_eq_true hlt)))
  · obtain ⟨c, r, out, heq, -⟩ := runCommand_completes hrun
    have hseq := congrArg Engine.seq heq
    rw [hs, Engine.complete_seq] at hseq
    cases hseq
  · obtain ⟨-, -, hrsp, -⟩ := Engine.ports_of_respond hr hs
    exact .inr (.inr (.inl (congrArg Option.isSome hrsp)))
  · obtain ⟨-, -, -, hout⟩ := Engine.ports_of_deliver hr hs
    cases out with
    | nil =>
      have hseq := congrArg Engine.seq heq
      rw [hs] at hseq
      cases hseq
    | cons x xs => exact .inr (.inr (.inr (congrArg Option.isSome hout)))

end Sys2Proof.Machine
end

section
/-! The statements about reset and the waits (70_reset_and_hazards). -/

open Sys2Proof Sys2Proof.Machine

/-- Settles O17: in reset only the idle engine waits; out of reset a wait leaves a port open, and as no word
moves, it is the host that withholds its half of that port's handshake. -/
theorem engineWaitsOnlyForTheHost : Obligations.EngineWaitsOnlyForTheHost := by
  intro P s h
  cases hr : s.rst with
  | true => exact .inl ⟨Engine.idle_of_wait_in_reset h hr, .inl rfl⟩
  | false =>
    obtain ⟨hcmd, hitem, hrsp, hout⟩ := Engine.host_withholds_of_movesTo_self (step_movesTo h)
    obtain hopen | hopen | hopen | hopen := Engine.port_open_of_wait h hr
    · obtain ⟨hs, -⟩ := s.cmdReady_iff.mp hopen
      exact .inl ⟨hs, .inr (hcmd hopen)⟩
    · exact .inr (.inl ⟨hopen, hitem hopen⟩)
    · exact .inr (.inr (.inl ⟨hopen, hrsp hopen⟩))
    · exact .inr (.inr (.inr ⟨hopen, hout hopen⟩))

/-- Settles O9: `rst` closes every port, and the step is `resetEngine`, which writes nothing of the host's. -/
theorem rstTakesTheResetState : Obligations.RstTakesTheResetState := by
  intro P s hr
  obtain ⟨hcmd, hin, hrsp, hout⟩ := Engine.ports_of_rst hr
  exact ⟨hcmd, hin, congrArg Option.isSome hrsp, congrArg Option.isSome hout, s.resetEngine, step_of_rst hr,
    rfl, rfl, rfl, Engine.resetEngine_sameHostSide s⟩

end

section
/-! What the pins show while a command runs (10_state rule R30; 70_reset_and_hazards R250; assumption log 5). -/

namespace Sys2Proof.Machine

variable {P : Params} {s : Engine P} {g : Shown P}

/-! ### What the engine shows, by the sequencer -/

theorem Engine.shown_of_run {p : Phase P} (hs : s.seq = .run g p) : s.shown = g := by
  simp only [Engine.shown, hs]

/-- While items are left to deliver, the latch is kept (R55, R250). -/
theorem Engine.shown_of_seqAfter {out : List (OutItem P)} (hs : s.seq = seqAfter g out) (hbusy : s.seq ≠ .idle) :
    s.shown = g := by
  cases out with
  | nil => exact absurd hs hbusy
  | cons x xs => exact Engine.shown_of_run hs

theorem Engine.busy_iff (s : Engine P) : s.busy = true ↔ s.seq ≠ .idle := by
  unfold Engine.busy
  cases s.seq <;> simp

/-! ### Each channel keeps what is shown, unless it ends the command -/

/-- The latch is taken as the command is accepted, from what the idle engine showed. -/
theorem Engine.acceptCommand_shown (hs : s.seq = .idle) : s.acceptCommand.shown = s.shown := by
  cases hw : s.cmdIn with
  | nil => rw [Engine.acceptCommand_nil s hw]
  | cons w ws =>
    rw [Engine.acceptCommand_cons s hw, Engine.shown_of_idle hs]
    rfl

theorem Engine.takeItem_shown {p : Phase P} (w : CmdWord P) (xs : List (InItem P)) (hs : s.seq = .run g p) :
    (s.takeItem g w xs).shown = s.shown := by
  cases hx : s.itemIn with
  | nil => rw [Engine.takeItem_nil g w xs s hx]
  | cons x rest =>
    rw [Engine.takeItem_cons g w xs s hx, Engine.shown_of_run hs]
    rfl

theorem Engine.moveResponse_shown {p : Phase P} {rsp : RspWord P} {out : List (OutItem P)}
    (hs : s.seq = .run g p) (hbusy : (s.moveResponse g rsp out).seq ≠ .idle) :
    (s.moveResponse g rsp out).shown = s.shown := by
  obtain ⟨-, heq⟩ | ⟨-, heq⟩ := s.moveResponse_cases g rsp out
  · rw [Engine.shown_of_run hs]
    exact Engine.shown_of_seqAfter (congrArg Engine.seq heq) hbusy
  · rw [heq]

theorem Engine.moveItem_shown {p : Phase P} {out : List (OutItem P)} (hs : s.seq = .run g p)
    (hbusy : (s.moveItem g out).seq ≠ .idle) : (s.moveItem g out).shown = s.shown := by
  obtain ⟨-, heq⟩ | ⟨x, xs, -, -, heq⟩ | ⟨x, xs, -, -, heq⟩ := s.moveItem_cases g out
  · exact absurd (congrArg Engine.seq heq) hbusy
  · rw [Engine.shown_of_run hs]
    exact Engine.shown_of_seqAfter (congrArg Engine.seq heq) hbusy
  · rw [heq]

/-- A step that leaves the engine running keeps what is shown (R250). -/
theorem step_keeps_shown {t : Engine P} (h : step ⟨P, s⟩ = .next ⟨P, t⟩) (hbusy : t.seq ≠ .idle) :
    t.shown = s.shown := by
  obtain ⟨-, rfl⟩ | ⟨-, ⟨hs, rfl⟩ | ⟨g, w, xs, hs, -, rfl⟩ | ⟨g, w, xs, -, -, hrun⟩ |
    ⟨g, rsp, out, hs, rfl⟩ | ⟨g, out, hs, rfl⟩⟩ := step_cases h
  · exact absurd s.resetEngine_seq hbusy
  · exact Engine.acceptCommand_shown hs
  · exact Engine.takeItem_shown w xs hs
  · obtain ⟨c, r, out, rfl, -⟩ := runCommand_completes hrun
    exact Engine.complete_shown c r out s
  · exact Engine.moveResponse_shown hs hbusy
  · exact Engine.moveItem_shown hs hbusy

/-! ### The pins of an idle and of a running engine -/

/-- BUSY is bit 0 of the status word (R30). -/
theorem statusWord_or_one (busy : Bool) (m : Mode) (r : Report P) :
    statusWord busy m r ||| 1#8 = statusWord true m r := by
  have hone : 1#8 = 0#4 ++ 0#1 ++ 0#2 ++ BitVec.ofBool true := by decide
  have hbusy : BitVec.ofBool busy ||| BitVec.ofBool true = BitVec.ofBool true := by cases busy <;> rfl
  unfold statusWord
  rw [hone, BitVec.or_append, BitVec.or_append, BitVec.or_append, BitVec.or_zero, BitVec.or_zero,
    BitVec.or_zero, hbusy]

theorem Engine.pins_of_idle (hs : s.seq = .idle) :
    s.statusPins = statusWord false s.coding.mode s.report ∧ s.errinfoPins = s.report.errinfo := by
  have hbusy : s.busy = false := by simp only [Engine.busy, hs]
  rw [Engine.statusPins, Engine.errinfoPins, Engine.shown_of_idle hs, hbusy]
  exact ⟨rfl, rfl⟩

/-- A running engine that shows what `s` showed differs from it at the pins in BUSY only. -/
theorem Engine.pins_of_shown_eq {t : Engine P} (hbusy : t.seq ≠ .idle) (hshown : t.shown = s.shown) :
    t.statusPins = s.statusPins ||| 1#8 ∧ t.errinfoPins = s.errinfoPins := by
  refine ⟨?_, congrArg (fun h => h.report.errinfo) hshown⟩
  rw [Engine.statusPins, Engine.statusPins, statusWord_or_one, hshown, t.busy_iff.mpr hbusy]

end Sys2Proof.Machine
end

section
/-! The statement about the pins (70_reset_and_hazards R250). -/

open Sys2Proof Sys2Proof.Machine

/-- Settles O16: an idle engine shows its own fields, and every step that leaves it running keeps what it
shows. -/
theorem pinsShowTheStateBeforeWhileBusy : Obligations.PinsShowTheStateBeforeWhileBusy := fun _ =>
  ⟨fun _ hs => Engine.pins_of_idle hs,
    fun _ _ h _ hbusy => Engine.pins_of_shown_eq hbusy (step_keeps_shown h hbusy)⟩

end
